-- ==== Sys2Proof/Word.lean ====
section
/-! DEFINITION. The smallest values of the block: bytes, the numbers a sample, a duration or a noise strength is
made of, and samples (spec/20_memory.md R41, R42, spec/30_encoding.md R67). -/

namespace Sys2Proof

/-- A byte is 8 bits (R11, R41). -/
abbrev Byte := BitVec 8

/-- A real number written down: from the rationals, pi and reals known by a name only, by what the channel does with
them (R161). Every real a rule speaks of is the value of such a term, and a term is plain data, which a real is not.
DESIGN CHOICE: notes/assumptions/1.md. -/
inductive RealTerm where
  | rat (q : Rat)
  | pi
  | named (k : Nat)
  | add (x y : RealTerm)
  | sub (x y : RealTerm)
  | mul (x y : RealTerm)
  | cos (x : RealTerm)
  | sin (x : RealTerm)
  deriving DecidableEq, Repr, Inhabited

/-- A number in the format NUM (R67, D8). The rules are stated over the reals, so a finite number is exact: a rational,
or any other real as a term. The special values are those the rules speak of: negative zero and the infinities (R164,
R171), and a NaN. DESIGN CHOICE: notes/assumptions/1.md. -/
inductive Number where
  | fin (q : Rat)
  | real (t : RealTerm)
  | negZero
  | inf (negative : Bool)
  | nan
  deriving DecidableEq, Repr, Inhabited

/-- One complex number per transmitted bit, held as the pair `(re, im)` (R42, R67). -/
structure Sample where
  re : Number
  im : Number
  deriving DecidableEq, Repr, Inhabited

end Sys2Proof
end

