-- ==== Sys2Proof/Syntax.lean ====
section
/-! DEFINITION. The ten operations a host can request, with their operands (spec/30_encoding.md R74 to R76). -/

namespace Sys2Proof

/-- The sensor kinds, codes 0 to 3 (R74); code 3 is the unknown kind. -/
inductive SensorKind where
  | occupancy
  | temperature
  | airQuality
  | unknown
  deriving DecidableEq, Repr, Inhabited

/-- What the scheduler keeps of one source (R22, R74): its kind, the two addresses its frames carry, and the handle on
which its `read_value()` is reached. -/
structure SourceRecord where
  kind : SensorKind
  dest : BitVec 10
  src  : BitVec 10
  port : Nat
  deriving DecidableEq, Repr, Inhabited

/-- The names of the ten operations (R76). -/
inductive Op where
  | frameEnc
  | frameDec
  | sensPack
  | sensUnpack
  | tdmaAdd
  | tdmaStart
  | tdmaStop
  | bpskMod
  | chanApply
  | bpskDemod
  deriving DecidableEq, Repr, Inhabited

/-- One request with its operands, one constructor per row of the operation table (R76). An operand the spec calls an
integer is a mathematical integer (R92, R110, D33, D39). -/
inductive Instr where
  | frameEnc (flag dest src data : Int)
  | frameDec (bytes : List Byte)
  | sensPack (nbPerson temperature airQuality : Int)
  | sensUnpack (data : Int)
  | tdmaAdd (record : SourceRecord)
  | tdmaStart (transport clock : Nat)
  | tdmaStop
  | bpskMod (bytes : List Byte)
  | chanApply (signal : List Sample) (noise : Number)
  | bpskDemod (signal : List Sample)
  deriving DecidableEq, Repr, Inhabited

/-- Why bytes on the host port are no request. -/
inductive DecodeError where
  | emptyRequest
  | reservedOpcode (op : BitVec 4)
  | truncatedOperand
  | recordTooWide
  | badNumberTag (tag : Byte)
  | trailingBytes
  deriving DecidableEq, Repr, Inhabited

/-- The named flag values (R68). They are names only: every 4-bit flag is legal. -/
def flagAck : Int := 0
def flagData : Int := 1
def flagDiscover : Int := 2

end Sys2Proof
end

