-- ==== Sys2Proof/Config.lean ====
section
/-! DEFINITION. What the spec leaves open: the construction parameters of spec/00_scope.md R9 as plain data, and the
uninterpreted values and functions, constants with no body of which nothing can be proved. -/

namespace Sys2Proof

/-- `ENC_RANGE_POLICY` (R9, R93). -/
inductive EncRangePolicy where
  | mask
  | reject
  deriving DecidableEq, Repr, Inhabited

/-- How results of arithmetic are delivered (R167, U3): exact over the reals, as the rules are stated, or as a
realisation delivers them, by functions of the operands of which nothing else is known. -/
inductive Arith where
  | exact
  | realised
  deriving DecidableEq, Repr, Inhabited

/-- Which `BUILD_FIELDS` the block was built with (R128): the default instance, or one nothing is known of. -/
inductive BuildPolicy where
  | standard
  | custom
  deriving DecidableEq, Repr, Inhabited

/-- The six values `BUILD_FIELDS` answers (R128), integers as FRAME.ENC and SENS.PACK take them. -/
structure FrameFields where
  flag        : Int
  dest        : Int
  src         : Int
  nbPerson    : Int
  temperature : Int
  airQuality  : Int
  deriving DecidableEq, Repr, Inhabited

/-- The construction parameters of R9 that are no constants. `none` is unbounded. `timeUnit` is the unit of every
duration by a name of its own; no rule depends on it (U19). `aqTable` lists readings whose `AQ_TRANSFORM` is known;
every other reading's is `Config.aqTransform`. -/
structure Params where
  slotDuration    : Number
  timeUnit        : Nat
  rngSeed         : Nat
  maxSources      : Option Nat
  maxBytes        : Option Nat
  encRange        : EncRangePolicy
  suspendOnTxFail : Bool
  arith           : Arith
  buildFields     : BuildPolicy
  aqTable         : List (Int × BitVec 8)
  deriving DecidableEq, Repr, Inhabited

/-- The parameters of `State.reset`: those R9 decides (`mask`, `true`), no bound (R9 allows it), exact arithmetic (R67),
the default `BUILD_FIELDS` (R128), and for the three OPEN numbers the value 0.
DESIGN CHOICE, unsafe: notes/assumptions/6.md, 7.md, 8.md, 11.md, 20.md, 21.md. -/
def Params.default : Params where
  slotDuration := .fin 0
  timeUnit := 0
  rngSeed := 0
  maxSources := none
  maxBytes := none
  encRange := .mask
  suspendOnTxFail := true
  arith := .exact
  buildFields := .standard
  aqTable := []

/-- The operations whose results may need a rounding (R167, R130). -/
inductive NumberOp where
  | add
  | sub
  | mul
  | div
  deriving DecidableEq, Repr, Inhabited

/-- Arithmetic in a realisation, a function of its operands alone (R167, U3). Free. -/
opaque Config.realised : NumberOp → Number → Number → Number

/-- The reals that are known by a name only. Free. -/
opaque Config.namedReal : Nat → ℝ

/-- Cosine and sine in a realisation, and of what is no real (R167, U3). Free. -/
opaque Config.cos : Number → Number
opaque Config.sin : Number → Number

/-- Over the reals, the result of arithmetic with an operand that is infinite or a NaN, of which the rules, stated over the reals, say
nothing. Free. -/
opaque Config.nonFinite : NumberOp → Number → Number → Number

/-- The draw number `k` of the random source seeded with `seed`, at a scale (R163, R201, U2). Free. -/
opaque Config.normalDraw (seed k : Nat) (scale : Number) : Number

/-- How many draws CHAN.APPLY consumes at zero noise, on a random source at draw `k` and a signal of `len` samples
(R162, U1). Free. -/
opaque Config.zeroNoiseDraws (seed k len : Nat) : Nat

/-- `BUILD_FIELDS` where it is not the default instance (R128, U18). Free. -/
opaque Config.buildFields : SourceRecord → Int → FrameFields

/-- `AQ_TRANSFORM`, integers to 0..255 (R128, U18). Free. -/
opaque Config.aqTransform : Int → BitVec 8

end Sys2Proof
end

