-- ==== Sys2Proof/Machine/Reals.lean ====
section
/-! DEFINITION. Real numbers written as terms (spec/30_encoding.md R67, spec/44_channel_model.md R161): which real a term
is, where it is a rational, and how it compares with 0. notes/assumptions/1.md, 3.md, 35.md. -/

namespace Sys2Proof.Machine

/-- The real a term is. -/
def denotes : RealTerm → ℝ → Prop
  | .rat q, r => r = (q : ℝ)
  | .pi, r => r = Real.pi
  | .named k, r => r = Config.namedReal k
  | .add x y, r => ∃ a b, denotes x a ∧ denotes y b ∧ r = a + b
  | .sub x y, r => ∃ a b, denotes x a ∧ denotes y b ∧ r = a - b
  | .mul x y, r => ∃ a b, denotes x a ∧ denotes y b ∧ r = a * b
  | .cos x, r => ∃ a, denotes x a ∧ r = Real.cos a
  | .sin x, r => ∃ a, denotes x a ∧ r = Real.sin a

/-- Every term is a real. -/
theorem denotes_exists (t : RealTerm) : ∃ r, denotes t r := by
  induction t with
  | rat | pi | named => exact ⟨_, rfl⟩
  | add _ _ ihx ihy | sub _ _ ihx ihy | mul _ _ ihx ihy =>
    obtain ⟨a, ha⟩ := ihx; obtain ⟨b, hb⟩ := ihy; exact ⟨_, a, b, ha, hb, rfl⟩
  | cos _ ih | sin _ ih => obtain ⟨a, ha⟩ := ih; exact ⟨_, a, ha, rfl⟩

/-! The terms that are a rational plus a rational multiple of pi, read off their form. -/

/-- A rational plus a rational multiple of pi. -/
structure PiLinear where
  unit : Rat
  pi   : Rat
  deriving DecidableEq, Repr

def mulLinear (x y : PiLinear) : Option PiLinear :=
  if y.pi = 0 then some ⟨x.unit * y.unit, x.pi * y.unit⟩
  else if x.pi = 0 then some ⟨x.unit * y.unit, x.unit * y.pi⟩
  else none

/-- How many quarter turns an angle is, modulo four, where it is a whole number of them. -/
def quarterTurns (x : PiLinear) : Option Nat :=
  if x.unit = 0 ∧ (2 * x.pi).den = 1 then some ((2 * x.pi).num % 4).toNat else none

def quarterCos (n : Nat) : PiLinear := if n = 0 then ⟨1, 0⟩ else if n = 2 then ⟨-1, 0⟩ else ⟨0, 0⟩

def quarterSin (n : Nat) : PiLinear := if n = 1 then ⟨1, 0⟩ else if n = 3 then ⟨-1, 0⟩ else ⟨0, 0⟩

def both {α β : Type} (f : α → α → Option β) : Option α → Option α → Option β
  | some a, some b => f a b
  | _, _ => none

def linear : RealTerm → Option PiLinear
  | .rat q => some ⟨q, 0⟩
  | .pi => some ⟨0, 1⟩
  | .named _ => none
  | .add x y => both (fun a b => some ⟨a.unit + b.unit, a.pi + b.pi⟩) (linear x) (linear y)
  | .sub x y => both (fun a b => some ⟨a.unit - b.unit, a.pi - b.pi⟩) (linear x) (linear y)
  | .mul x y => both mulLinear (linear x) (linear y)
  | .cos x => ((linear x).bind quarterTurns).map quarterCos
  | .sin x => ((linear x).bind quarterTurns).map quarterSin

/-- The rational a term is by its form. -/
def rational (t : RealTerm) : Option Rat := (linear t).bind fun x => if x.pi = 0 then some x.unit else none

/-! Rational bounds of a term. -/

structure Bounds where
  lo : Rat
  hi : Rat
  deriving DecidableEq, Repr

/-- Pi to twenty places. -/
def piBounds : Bounds := ⟨314159265358979323846 / 10 ^ 20, 314159265358979323847 / 10 ^ 20⟩

def mulBounds (x y : Bounds) : Bounds where
  lo := min (min (x.lo * y.lo) (x.lo * y.hi)) (min (x.hi * y.lo) (x.hi * y.hi))
  hi := max (max (x.lo * y.lo) (x.lo * y.hi)) (max (x.hi * y.lo) (x.hi * y.hi))

/-- The first terms of the power series of the cosine and the sine, 32 of each. -/
def cosSum (c : Rat) : Rat := ((List.range 32).map fun k => (-1) ^ k * c ^ (2 * k) / (2 * k).factorial).sum

def sinSum (c : Rat) : Rat := ((List.range 32).map fun k => (-1) ^ k * c ^ (2 * k + 1) / (2 * k + 1).factorial).sum

/-- Bounds of the cosine or the sine over an interval from its series at the middle: the rest of the series there, plus
half the interval's length. Far from 0 nothing but -1 and 1. -/
def waveBounds (series : Rat → Rat) (x : Bounds) : Bounds :=
  let c := (x.lo + x.hi) / 2
  let e := |c| ^ 64 / (64).factorial * 2 + (x.hi - x.lo) / 2
  if |c| ≤ 32 then ⟨max (-1) (series c - e), min 1 (series c + e)⟩ else ⟨-1, 1⟩

def bounds : RealTerm → Option Bounds
  | .rat q => some ⟨q, q⟩
  | .pi => some piBounds
  | .named _ => none
  | .add x y => both (fun a b => some ⟨a.lo + b.lo, a.hi + b.hi⟩) (bounds x) (bounds y)
  | .sub x y => both (fun a b => some ⟨a.lo - b.hi, a.hi - b.lo⟩) (bounds x) (bounds y)
  | .mul x y => both (fun a b => some (mulBounds a b)) (bounds x) (bounds y)
  | .cos x => (bounds x).map (waveBounds cosSum)
  | .sin x => (bounds x).map (waveBounds sinSum)

/-- How a rational compares with 0. -/
def rationalSign (q : Rat) : Ordering := if q < 0 then .lt else if q = 0 then .eq else .gt

/-- How what lies in an interval compares with 0, where that is one answer. -/
def boundsSign (x : Bounds) : Option Ordering :=
  if 0 < x.lo then some .gt
  else if x.hi < 0 then some .lt
  else if x.lo = 0 ∧ x.hi = 0 then some .eq
  else none

/-- How a real compares with 0, where its form or its bounds say so. -/
def knownSign (t : RealTerm) : Option Ordering :=
  match rational t with
  | some q => some (rationalSign q)
  | none => (bounds t).bind boundsSign

/-! How a real compares with 0, in every case. -/

/-- How the real a term is compares with 0. -/
def IsSign (t : RealTerm) (o : Ordering) : Prop := ∃ r, denotes t r ∧ o.Compares r 0

abbrev SignOf (t : RealTerm) := {o : Ordering // IsSign t o}

theorem sign_exists (t : RealTerm) : Nonempty (SignOf t) := by
  obtain ⟨r, h⟩ := denotes_exists t
  rcases lt_trichotomy r 0 with hs | hs | hs
  · exact ⟨.lt, r, h, hs⟩
  · exact ⟨.eq, r, h, hs⟩
  · exact ⟨.gt, r, h, hs⟩

/-- The sign of a term's real, there by `sign_exists` and right by its type. No evaluation finds it: whether a real is 0
is not decidable. notes/assumptions/35.md. -/
def signOf (t : RealTerm) [Nonempty (SignOf t)] : SignOf t := signOf t
partial_fixpoint

/-- How a real compares with 0 (R160, R164, R171): evaluated where its form or its bounds say so, and in every case the
sign of the real (`realSign_compares`). -/
def realSign (t : RealTerm) : Ordering := (knownSign t).getD (@signOf t (sign_exists t)).val

end Sys2Proof.Machine
end

