-- ==== Sys2Proof/Machine/Numbers.lean ====
section
/-! DEFINITION. Arithmetic on numbers (spec/44_channel_model.md R161, R167, spec/42_tdma_scheduler.md R130): over the
reals on finite operands, left open where the rules, stated over the reals, say nothing.
DESIGN CHOICE: notes/assumptions/1.md to 5.md. -/

namespace Sys2Proof.Machine

/-- The real a finite number is, as a term. Negative zero is 0. -/
def numberTerm : Number → Option RealTerm
  | .fin q => some (.rat q)
  | .real t => some t
  | .negZero => some (.rat 0)
  | .inf _ => none
  | .nan => none

/-- A real as a number, as a rational where it is one by its form. -/
def ofReal (t : RealTerm) : Number :=
  match rational t with
  | some q => .fin q
  | none => .real t

/-- How a number compares with 0; a NaN does not. -/
def numberSign : Number → Option Ordering
  | .fin q => some (rationalSign q)
  | .real t => some (realSign t)
  | .negZero => some .eq
  | .inf negative => some (if negative then .lt else .gt)
  | .nan => none

/-- Greater than 0, the comparison of the demodulator (R171). -/
def numberPositive (x : Number) : Bool := numberSign x == some .gt

/-- Equal to 0, the comparison of the zero-noise bypass (R160). -/
def numberIsZero (x : Number) : Bool := numberSign x == some .eq

/-- A number not less than 0, the domain of `slot_duration` (R23, D25). -/
def numberNonNegative (x : Number) : Bool := numberPositive x || numberIsZero x

/-- The noise strengths CHAN.APPLY accepts: numbers not less than 0, neither infinite nor a NaN (R160, R164). -/
def noiseInDomain (x : Number) : Bool := (numberTerm x).isSome && numberNonNegative x

/-- An operation on two numbers over the reals, where both are finite. -/
def exactly (op : NumberOp) (f : RealTerm → RealTerm → RealTerm) (x y : Number) : Number :=
  match numberTerm x, numberTerm y with
  | some a, some b => ofReal (f a b)
  | _, _ => Config.nonFinite op x y

/-- An operation on two numbers: over the reals, or as a realisation delivers it (R167, U3). -/
def arithmetic (a : Arith) (op : NumberOp) (f : RealTerm → RealTerm → RealTerm) (x y : Number) : Number :=
  match a with
  | .exact => exactly op f x y
  | .realised => Config.realised op x y

def numberAdd (a : Arith) (x y : Number) : Number := arithmetic a .add .add x y

def numberSub (a : Arith) (x y : Number) : Number := arithmetic a .sub .sub x y

def numberMul (a : Arith) (x y : Number) : Number := arithmetic a .mul .mul x y

/-- A number over a positive count (R130). -/
def numberDivNat (a : Arith) (x : Number) (n : Nat) : Number :=
  arithmetic a .div (fun t _ => .mul t (.rat (n : Rat)⁻¹)) x (.fin n)

/-- A function on the reals of one number, or what a realisation or no real gives. -/
def wave (a : Arith) (f : RealTerm → RealTerm) (free : Number → Number) (x : Number) : Number :=
  match a, numberTerm x with
  | .exact, some t => ofReal (f t)
  | _, _ => free x

/-- The cosine and the sine of an angle in radians (R161, R167). -/
def numberCos (a : Arith) (x : Number) : Number := wave a .cos Config.cos x

def numberSin (a : Arith) (x : Number) : Number := wave a .sin Config.sin x

end Sys2Proof.Machine
end

