-- ==== Sys2Proof/Machine/Operands.lean ====
section
/-! DEFINITION. How operands are reduced to their fields and checked (spec/30_encoding.md R70, R71), and how fields are
laid out in words and bytes (R44, R45, R61 to R66). -/

namespace Sys2Proof.Machine

/-- `mask_n(v)`: `v mod 2^n`, for any integer (R11). -/
def mask (n : Nat) (v : Int) : BitVec n := BitVec.ofInt n v

/-- `sext_8(b)` (R11). -/
def sext8 (b : BitVec 8) : Int := if b.toNat < 128 then (b.toNat : Int) else (b.toNat : Int) - 256

/-- The four fields of a frame at their widths (R61). -/
structure FieldBits where
  flag : BitVec 4
  dest : BitVec 10
  src  : BitVec 10
  data : BitVec 24
  deriving DecidableEq, Repr

/-- Every operand already fits its field (R93). -/
def fitsFields (flag dest src data : Int) : Bool :=
  decide (((mask 4 flag).toNat : Int) = flag) && decide (((mask 10 dest).toNat : Int) = dest)
    && decide (((mask 10 src).toNat : Int) = src) && decide (((mask 24 data).toNat : Int) = data)

/-- `range_check` (R93): the reduced operands; under `reject` none where reducing would change one. -/
def rangeCheck (policy : EncRangePolicy) (flag dest src data : Int) : Option FieldBits :=
  let fields : FieldBits := ⟨mask 4 flag, mask 10 dest, mask 10 src, mask 24 data⟩
  match policy with
  | .mask => some fields
  | .reject => if fitsFields flag dest src data then some fields else none

/-- The temperatures SENS.PACK accepts (R111). -/
def temperatureInRange (t : Int) : Bool := decide (-128 ≤ t) && decide (t ≤ 127)

/-- `sfd`, the constant start-frame delimiter (R69). -/
def sfd : BitVec 8 := 0xA5#8

/-- The first and second half of a frame before the wire transform (R61). -/
def word0 (f : FieldBits) : BitVec 32 := sfd ++ f.flag ++ f.dest ++ f.src

def word1 (f : FieldBits) (crc : BitVec 8) : BitVec 32 := f.data ++ crc

/-- The wire transform and its inverse: every bit inverted (R63). -/
def wireInvert (w : BitVec 32) : BitVec 32 := ~~~w

/-- The bytes of a word, most significant first (R44). -/
def wordBytes (w : BitVec 32) : List Byte :=
  [w.extractLsb' 24 8, w.extractLsb' 16 8, w.extractLsb' 8 8, w.extractLsb' 0 8]

/-- The 8 wire bytes of a frame held as 64 bits, `I0` then `I1` (R44, R47). -/
def frameBytes (w : BitVec 64) : List Byte := wordBytes (w.extractLsb' 32 32) ++ wordBytes (w.extractLsb' 0 32)

/-- The 24 bits of a payload (R66). -/
def payload (nbPerson temperature airQuality : BitVec 8) : BitVec 24 := nbPerson ++ temperature ++ airQuality

/-- The bits of a byte, most significant first (R45). -/
def byteBits (b : Byte) : List Bool :=
  [b.getLsbD 7, b.getLsbD 6, b.getLsbD 5, b.getLsbD 4, b.getLsbD 3, b.getLsbD 2, b.getLsbD 1, b.getLsbD 0]

/-- Eight bits as a byte, most significant first (R45). -/
def byteOfBits (b7 b6 b5 b4 b3 b2 b1 b0 : Bool) : Byte :=
  BitVec.ofBool b7 ++ BitVec.ofBool b6 ++ BitVec.ofBool b5 ++ BitVec.ofBool b4
    ++ BitVec.ofBool b3 ++ BitVec.ofBool b2 ++ BitVec.ofBool b1 ++ BitVec.ofBool b0

/-- The sample of a bit (R73, R150): the values are exact (R153). -/
def bitSample (b : Bool) : Sample := if b then ⟨.fin (-1), .fin 0⟩ else ⟨.fin 1, .fin 0⟩

/-- The bit of a sample: 1 exactly when the real component is greater than 0; the imaginary one is not read (R171). -/
def sampleBit (s : Sample) : Bool := numberPositive s.re

end Sys2Proof.Machine
end

