-- ==== Sys2Proof/Machine/State.lean ====
section
/-! DEFINITION. The state of the block (spec/10_state.md), what stands on its ports (spec/60_exceptions.md R197 to R203),
the reasons a step can stop, and the state after reset (R33, spec/70_reset_and_hazards.md R210). -/

namespace Sys2Proof.Machine

/-- The five points of a slot (R27). -/
inductive SlotPhase where
  | boundary
  | read
  | build
  | transmit
  | suspend
  deriving DecidableEq, Repr, Inhabited

/-- The random source: its seed and how many draws it has given (R28). Its state type and algorithm are not given; the
draw of a seed and a count is `Config.normalDraw`. notes/assumptions/8.md. -/
structure Rng where
  seed  : Nat
  drawn : Nat
  deriving DecidableEq, Repr, Inhabited

/-- The status of a response or an event (R180, R181). -/
inductive Status where
  | ok
  | invalidFrameLength
  | valueOutOfRange
  | configurationError
  | noSourcesRegistered
  | alreadyRunning
  | transportFailure
  deriving DecidableEq, Repr, Inhabited

/-- The results of FRAME.DEC (R96). -/
structure DecodedFrame where
  sfd           : BitVec 8
  flag          : BitVec 4
  dest          : BitVec 10
  src           : BitVec 10
  data          : BitVec 24
  crc           : BitVec 8
  checksumValid : Bool
  deriving DecidableEq, Repr, Inhabited

/-- The results of an operation (R76). -/
inductive Result where
  | nothing
  | bytes (b : List Byte)
  | frame (f : DecodedFrame)
  | data (d : BitVec 24)
  | readings (nbPerson : BitVec 8) (temperature : Int) (airQuality : BitVec 8)
  | signal (s : List Sample)
  deriving DecidableEq, Repr, Inhabited

/-- What the block puts on its ports (R197 to R200, R203): a response on the host port, an event on the event output, and
the calls it begins on a sensor, the transport, the clock and the random source. A response carries the operation it answers, since
TDMA.START's comes late (R197). notes/assumptions/18.md. -/
inductive Output where
  | response (op : Op) (status : Status) (result : Result)
  | event (status : Status) (slot : Nat)
  | sensorRead (slot port : Nat)
  | transmit (transport : Nat) (frame : List Byte)
  | suspend (clock : Nat) (duration : Number)
  | draw (scale : Number)
  deriving DecidableEq, Repr, Inhabited

/-- A sensor's answer to a read (R198, U8). One that never comes is no entry. -/
inductive SensorAnswer where
  | value (v : Int)
  | fails
  deriving DecidableEq, Repr, Inhabited

/-- The transport's answer to a transmit (R199). One that never comes is no entry (U7). -/
inductive TransportAnswer where
  | ok
  | fail
  deriving DecidableEq, Repr, Inhabited

/-- Who moves (R16): the host with the bytes of a request, the scheduler, the stop line (R202), the reset line (R210).
notes/assumptions/13.md. -/
inductive Turn where
  | host (request : List Byte)
  | scheduler
  | stopLine
  | resetLine
  deriving DecidableEq, Repr, Inhabited

/-- What spec/93_implementation_defined.md marks `fault` in a run: U4, an error of the build phase; U8, a sensor read
that fails. Each names the slot index. notes/assumptions/16.md. -/
inductive RunFault where
  | buildError (slot : Nat)
  | sensorReadFailed (slot : Nat)
  deriving DecidableEq, Repr, Inhabited

/-- Why the machine stops with a fault. Both are safe, and no run from reset meets either. -/
inductive Fault where
  /-- Raised by a scheduler step after the boundary check when `slot_idx` is no position of `sources`, which R26 and
  R32 (b) rule out. Safe: the model stops where the spec describes no state. -/
  | slotIndexOutOfRange
  /-- Raised by the scheduler at TRANSMIT when no BUILD has written `tx_frame` since reset (U23, D28). Safe: the spec asks
  for this fault. -/
  | txFrameUnwritten
  deriving DecidableEq, Repr

/-- Why the machine gives a step no meaning. All are safe: nothing is proved of a run that meets one (R15). -/
inductive Refusal where
  /-- Raised by `exec` for an instruction that has no meaning yet. Safe. -/
  | notModelled (mnemonic : String)
  /-- Raised by a host turn whose operation code is 0xA to 0xF (R77). Safe. -/
  | reservedOpcode (op : BitVec 4)
  /-- Raised by a host turn whose bytes are no request of the model's own byte format. Safe. -/
  | malformedRequest (why : DecodeError)
  /-- Raised by CHAN.APPLY when the noise strength is negative, infinite or a NaN (R164, U6). Safe. -/
  | noiseStrengthOutOfDomain
  /-- Raised by TDMA.ADD when the list holds MAX_SOURCES sources (R123, U13). Safe. -/
  | sourceListFull
  /-- Raised by BPSK.MOD when the sequence is longer than MAX_BYTES (R41, R13, D14). Safe. -/
  | sequenceTooLong
  /-- Raised by the reset line while `running = 1` (R212, U12). Safe. -/
  | resetWhileRunning
  /-- Raised by construction, and so by the reset line, when SLOT_DURATION is negative or a NaN (D25). Safe. -/
  | slotDurationOutOfDomain
  deriving DecidableEq, Repr

/-- The state. First the elements of R21 to R28; then what a phase-by-phase scheduler holds besides; then the
construction parameters; then the inputs that have not been taken and the outputs given so far. -/
structure State where
  /-- The registered sources in registration order (R21). -/
  sources : List SourceRecord
  /-- The time budget of a full cycle (R23). -/
  slotDuration : Number
  /-- The running flag (R24), the mode of the block (R194). -/
  running : Bool
  /-- The pending stop signal (R25). -/
  stopReq : Bool
  /-- The position of the source the current or next slot serves (R26). -/
  slotIdx : Nat
  /-- The point of the slot (R27). -/
  slotPhase : SlotPhase
  /-- The frame being transmitted, the 64 wire bits `I0 ++ I1` (R27, R47). -/
  txFrame : BitVec 64
  /-- The random source (R28). -/
  rng : Rng
  /-- A BUILD has written `txFrame` since reset (U23). notes/assumptions/10.md. -/
  txWritten : Bool
  /-- The phase's collaborator call has begun and not returned (R129, R52). notes/assumptions/15.md. -/
  calling : Bool
  /-- The value READ got, until BUILD uses it (R126). -/
  reading : Int
  /-- The transport the run was started with (R138). -/
  transport : Nat
  /-- The clock the run was started with (R138). -/
  clock : Nat
  /-- The first fault of a run, never cleared (R192). -/
  faultRecord : Option RunFault
  /-- The construction parameters (R9). -/
  params : Params
  /-- Who moves next, in order; when it is empty the scheduler moves while it runs. -/
  turns : List Turn
  /-- The sensors' answers, in the order of the calls (R30). -/
  sensorIn : List SensorAnswer
  /-- The transport's answers, in the order of the calls (R30). -/
  transportIn : List TransportAnswer
  /-- How many suspensions the clock will still end (R30). -/
  clockIn : Nat
  /-- Draws that are already fixed, oldest first; after them come those of `Config.normalDraw` (R30, R163). -/
  drawIn : List Number
  /-- Everything the block has put on its ports, oldest first. -/
  out : List Output
  deriving DecidableEq, Repr

/-- What `exec` and `step` answer. -/
abbrev StepResult := Host.Outcome State Fault Refusal

/-- The state of a block at reset (R33, R210): R33's values, `slot_duration` and the random source from the parameters.
Where R33 gives none the value is the model's: notes/assumptions/10.md, 15.md, 26.md. Parameters that D25 does not allow
are refused by `construct`. -/
def State.resetValues (p : Params) : State where
  sources := []
  slotDuration := p.slotDuration
  running := false
  stopReq := false
  slotIdx := 0
  slotPhase := .boundary
  txFrame := 0#64
  rng := ⟨p.rngSeed, 0⟩
  txWritten := false
  calling := false
  reading := 0
  transport := 0
  clock := 0
  faultRecord := none
  params := p
  turns := []
  sensorIn := []
  transportIn := []
  clockIn := 0
  drawIn := []
  out := []

/-- The machine right after reset (R33, R210). -/
def State.reset : State := State.resetValues Params.default

end Sys2Proof.Machine
end

