-- ==== Sys2Proof/Machine/Flags.lean ====
section
/-! DEFINITION. The three values that play the part of flags (spec/10_state.md R29): `checksum_valid`, with the checksum
it compares (spec/40_frame_codec.md R90), and the scheduler's `running` and `stop_req`; and the status codes
(spec/60_exceptions.md R181). -/

namespace Sys2Proof.Machine

/-- The 48-bit blob the checksum is folded over (R65). -/
def blob (f : FieldBits) : BitVec 48 := f.flag ++ f.dest ++ f.src ++ f.data

/-- The checksum of a frame: the exclusive-or of the six bytes of the blob (R90). -/
def crc8 (f : FieldBits) : BitVec 8 :=
  let b := blob f
  b.extractLsb' 40 8 ^^^ b.extractLsb' 32 8 ^^^ b.extractLsb' 24 8 ^^^ b.extractLsb' 16 8
    ^^^ b.extractLsb' 8 8 ^^^ b.extractLsb' 0 8

/-- `checksum_valid`: the stored checksum equals the one recomputed from the fields (R96). -/
def checksumValid (f : FieldBits) (stored : BitVec 8) : Bool := stored == crc8 f

/-- The stop signal raised: held pending in `stop_req` while running, lost while stopped (R132, R202). -/
def requestStop (s : State) : State := if s.running then { s with stopReq := true } else s

/-- The flags of a run that has ended (R127, R135). -/
def clearRun (s : State) : State := { s with running := false, stopReq := false }

/-- The flags of a run that begins (R125). -/
def beginRun (s : State) : State := { s with running := true, stopReq := false }

/-- The 3-bit status codes (R181); 7 is never produced. -/
def statusCode : Status → BitVec 3
  | .ok => 0#3
  | .invalidFrameLength => 1#3
  | .valueOutOfRange => 2#3
  | .configurationError => 3#3
  | .noSourcesRegistered => 4#3
  | .alreadyRunning => 5#3
  | .transportFailure => 6#3

/-- The members of the `ConfigurationError` class (R185). -/
def inConfigurationClass : Status → Bool
  | .configurationError => true
  | .noSourcesRegistered => true
  | _ => false

end Sys2Proof.Machine
end

