-- ==== Sys2Proof/Machine/Ops.lean ====
section
/-! DEFINITION. The named operations over the state: what goes out on the ports (spec/60_exceptions.md R197, R203),
raising an error (R191), ending a run (spec/42_tdma_scheduler.md R127, R135), the random source
(spec/44_channel_model.md R163, R166) and reset (spec/70_reset_and_hazards.md R210, R212). -/

namespace Sys2Proof.Machine

/-- Put something on a port. -/
def emit (o : Output) (s : State) : State := { s with out := s.out ++ [o] }

/-- Answer a request: its status and its results (R197). -/
def respond (op : Op) (status : Status) (r : Result) (s : State) : State := emit (.response op status r) s

/-- An operation raises an error: it writes no state, returns no result and reports the error kind as its status (R191).
There is no return from it: nothing was saved and nothing is restored (R192). -/
def raiseError (op : Op) (e : Status) (s : State) : State := respond op e .nothing s

/-- An operation completes with status `Ok` (R12). -/
def answer (op : Op) (r : Result) (s : State) : State := respond op .ok r s

/-- The scheduler's run is over: no slot is in progress and TDMA.START answers (R127, R135, R136). `slot_idx` stays. -/
def endRun (status : Status) (s : State) : State :=
  respond .tdmaStart status .nothing { clearRun s with slotPhase := .boundary, calling := false }

/-- The model's never-cleared fault record (R192): the first fault stays. -/
def recordFault (f : RunFault) (s : State) : State := { s with faultRecord := some (s.faultRecord.getD f) }

/-- An error inside a slot ends the run with `ValueOutOfRange` (R135, R136). notes/assumptions/16.md. -/
def endRunOnFault (f : RunFault) (s : State) : State := endRun .valueOutOfRange (recordFault f s)

/-- A number of draws asked of the random source one after another, each presenting the scale on its port (R201). -/
def askDraws (k : Nat) (scale : Number) (s : State) : State :=
  { s with rng := { s.rng with drawn := s.rng.drawn + k }, drawIn := s.drawIn.drop k,
           out := s.out ++ List.replicate k (.draw scale) }

/-- One `DrawNormal`: the number received, and the block after it (R163, R201). -/
def drawNormal (scale : Number) (s : State) : Number × State :=
  (s.drawIn.head?.getD (Config.normalDraw s.rng.seed s.rng.drawn scale), askDraws 1 scale s)

/-- Construction with some parameters (R210): refused where SLOT_DURATION is no number not less than 0 (R23, D25). -/
def construct (p : Params) : StepResult :=
  if numberNonNegative p.slotDuration then .next (State.resetValues p) else .refused .slotDurationOutOfDomain

/-- The values reset gives the block's own elements (R210); ports, parameters and the fault record are not among them. -/
def resetBlock (s : State) : State :=
  let fresh := State.resetValues s.params
  { fresh with faultRecord := s.faultRecord, turns := s.turns, sensorIn := s.sensorIn, transportIn := s.transportIn,
               clockIn := s.clockIn, drawIn := s.drawIn, out := s.out }

/-- The reset line (R210 to R212, D25). -/
def takeReset (s : State) : StepResult :=
  if s.running then .refused .resetWhileRunning
  else
    match construct s.params with
    | .next _ => .next (resetBlock s)
    | refusal => refusal

end Sys2Proof.Machine
end

