-- ==== Sys2Proof/Machine/FrameCodec.lean ====
section
/-! DEFINITION. FrameCodec: FRAME.ENC and FRAME.DEC (spec/40_frame_codec.md). -/

namespace Sys2Proof.Machine

/-- The 64 wire bits `I0 ++ I1` of a frame with these fields, its checksum computed from them (R92, R94). -/
def wireFrame (f : FieldBits) : BitVec 64 := wireInvert (word0 f) ++ wireInvert (word1 f (crc8 f))

/-- The wire bits FRAME.ENC answers, none where it raises `ValueOutOfRange` (R92, R93). -/
def frameEncode (policy : EncRangePolicy) (flag dest src data : Int) : Option (BitVec 64) :=
  (rangeCheck policy flag dest src data).map wireFrame

/-- The fields of the two halves `I0`, `I1` and the checksum verdict (R72, R96); the delimiter is not compared (R97). -/
def decodeHalves (i0 i1 : BitVec 32) : DecodedFrame :=
  let w0 := wireInvert i0
  let w1 := wireInvert i1
  let f : FieldBits := ⟨w0.extractLsb' 20 4, w0.extractLsb' 10 10, w0.extractLsb' 0 10, w1.extractLsb' 8 24⟩
  let crc := w1.extractLsb' 0 8
  { sfd := w0.extractLsb' 24 8, flag := f.flag, dest := f.dest, src := f.src, data := f.data, crc := crc,
    checksumValid := checksumValid f crc }

/-- What FRAME.DEC answers, none unless there are exactly 8 bytes (R95, R96). -/
def frameDecode : List Byte → Option DecodedFrame
  | [b0, b1, b2, b3, b4, b5, b6, b7] => some (decodeHalves (b0 ++ b1 ++ b2 ++ b3) (b4 ++ b5 ++ b6 ++ b7))
  | _ => none

/-- FRAME.ENC (R92, R93). -/
def execFrameEnc (flag dest src data : Int) (s : State) : StepResult :=
  match frameEncode s.params.encRange flag dest src data with
  | some w => .next (answer .frameEnc (.bytes (frameBytes w)) s)
  | none => .next (raiseError .frameEnc .valueOutOfRange s)

/-- FRAME.DEC (R95 to R97): a checksum mismatch is no error (R188). -/
def execFrameDec (bytes : List Byte) (s : State) : StepResult :=
  match frameDecode bytes with
  | some f => .next (answer .frameDec (.frame f) s)
  | none => .next (raiseError .frameDec .invalidFrameLength s)

end Sys2Proof.Machine
end

