-- ==== Sys2Proof/Machine/Pipeline.lean ====
section
/-! DEFINITION. The pipeline: BPSK.MOD (spec/43_bpsk_modulator.md), CHAN.APPLY (spec/44_channel_model.md), BPSK.DEMOD
(spec/45_bpsk_demodulator.md). The modulator and the demodulator disagree on the polarity, and nothing corrects it
(R173). -/

namespace Sys2Proof.Machine

/-- The samples of a byte sequence (R150). -/
def modulate (bytes : List Byte) : List Sample := bytes.flatMap fun b => (byteBits b).map bitSample

/-- A sequence the modulator takes (R41, D14). -/
def fitsMaxBytes (s : State) (bytes : List Byte) : Bool :=
  match s.params.maxBytes with
  | some m => decide (bytes.length ≤ m)
  | none => true

/-- BPSK.MOD (R150). -/
def execBpskMod (bytes : List Byte) (s : State) : StepResult :=
  if fitsMaxBytes s bytes then .next (answer .bpskMod (.signal (modulate bytes)) s)
  else .refused .sequenceTooLong

/-- A sample rotated by `phi`, then `eta` added to its real component only (R160, R161). -/
def perturb (a : Arith) (x : Sample) (phi eta : Number) : Sample where
  re := numberAdd a
    (numberSub a (numberMul a x.re (numberCos a phi)) (numberMul a x.im (numberSin a phi))) eta
  im := numberAdd a (numberMul a x.re (numberSin a phi)) (numberMul a x.im (numberCos a phi))

/-- The samples after the channel, and the block after the draws: two a sample, `phi` first (R160, R166). -/
def channel (noise : Number) : List Sample → State → List Sample × State
  | [], s => ([], s)
  | x :: xs, s =>
    match drawNormal noise s with
    | (phi, s1) =>
      match drawNormal noise s1 with
      | (eta, s2) =>
        match channel noise xs s2 with
        | (ys, s3) => (perturb s.params.arith x phi eta :: ys, s3)

/-- How many draws a zero-noise call consumes: none for an empty signal, else unspecified (R160, R162, U1). -/
def zeroNoiseDraws (s : State) (signal : List Sample) : Nat :=
  if signal.isEmpty then 0 else Config.zeroNoiseDraws s.rng.seed s.rng.drawn signal.length

/-- CHAN.APPLY (R160 to R167). -/
def execChanApply (signal : List Sample) (noise : Number) (s : State) : StepResult :=
  if noiseInDomain noise = false then .refused .noiseStrengthOutOfDomain
  else if numberIsZero noise then
    .next (answer .chanApply (.signal signal) (askDraws (zeroNoiseDraws s signal) noise s))
  else
    match channel noise signal s with
    | (ys, t) => .next (answer .chanApply (.signal ys) t)

/-- Every 8 bits as one byte; what does not fill a byte is dropped (R172). -/
def packBits : List Bool → List Byte
  | b7 :: b6 :: b5 :: b4 :: b3 :: b2 :: b1 :: b0 :: rest => byteOfBits b7 b6 b5 b4 b3 b2 b1 b0 :: packBits rest
  | _ => []

/-- The bytes of a signal (R170). -/
def demodulate (signal : List Sample) : List Byte := packBits (signal.map sampleBit)

/-- BPSK.DEMOD (R170). -/
def execBpskDemod (signal : List Sample) (s : State) : StepResult :=
  .next (answer .bpskDemod (.bytes (demodulate signal)) s)

end Sys2Proof.Machine
end

