-- ==== Sys2Proof/Machine/SensorCodec.lean ====
section
/-! DEFINITION. SensorFrameCodec: SENS.PACK and SENS.UNPACK (spec/41_sensor_codec.md). -/

namespace Sys2Proof.Machine

/-- The payload SENS.PACK answers, none where it raises `ValueOutOfRange` (R110, R111). -/
def sensPack (nbPerson temperature airQuality : Int) : Option (BitVec 24) :=
  if temperatureInRange temperature then some (payload (mask 8 nbPerson) (mask 8 temperature) (mask 8 airQuality))
  else none

/-- SENS.PACK (R110, R111). -/
def execSensPack (nbPerson temperature airQuality : Int) (s : State) : StepResult :=
  match sensPack nbPerson temperature airQuality with
  | some d => .next (answer .sensPack (.data d) s)
  | none => .next (raiseError .sensPack .valueOutOfRange s)

/-- The three readings of a payload (R112). -/
def sensUnpack (d : BitVec 24) : Result :=
  .readings (d.extractLsb' 16 8) (sext8 (d.extractLsb' 8 8)) (d.extractLsb' 0 8)

/-- SENS.UNPACK (R112): an operand wider than 24 bits is reduced first (D39). -/
def execSensUnpack (data : Int) (s : State) : StepResult :=
  .next (answer .sensUnpack (sensUnpack (mask 24 data)) s)

end Sys2Proof.Machine
end

