-- ==== Sys2Proof/Machine/Tdma.lean ====
section
/-! DEFINITION. TDMAScheduler's three host operations: TDMA.ADD, TDMA.START, TDMA.STOP
(spec/42_tdma_scheduler.md R121 to R125, R132). -/

namespace Sys2Proof.Machine

/-- The list holds MAX_SOURCES sources (R123). -/
def sourceListFull (s : State) : Bool :=
  match s.params.maxSources with
  | some m => decide (m ≤ s.sources.length)
  | none => false

/-- TDMA.ADD (R121 to R123): state is checked before the operand (R190). -/
def execTdmaAdd (record : SourceRecord) (s : State) : StepResult :=
  if s.running then .next (raiseError .tdmaAdd .alreadyRunning s)
  else if record.kind = .unknown then .next (raiseError .tdmaAdd .configurationError s)
  else if sourceListFull s then .refused .sourceListFull
  else .next (answer .tdmaAdd .nothing { s with sources := s.sources ++ [record] })

/-- TDMA.START's entry actions (R125): a cycle begins at the source registered first, with the bindings named (R138). -/
def enterRun (transport clock : Nat) (s : State) : State :=
  { beginRun s with slotIdx := 0, slotPhase := .boundary, calling := false, transport := transport, clock := clock }

/-- TDMA.START (R124, R125): it answers now only where it fails; otherwise when its run ends (R136). -/
def execTdmaStart (transport clock : Nat) (s : State) : StepResult :=
  if s.running then .next (raiseError .tdmaStart .alreadyRunning s)
  else if s.sources.isEmpty then .next (raiseError .tdmaStart .noSourcesRegistered s)
  else .next (enterRun transport clock s)

/-- TDMA.STOP (R132). -/
def execTdmaStop (s : State) : StepResult := .next (answer .tdmaStop .nothing (requestStop s))

end Sys2Proof.Machine
end

