-- ==== Sys2Proof/Machine/Dispatch.lean ====
section
/-! DEFINITION. One arm per operation of spec/opcode_table.json. -/

namespace Sys2Proof.Machine

def exec (i : Instr) (s : State) : Host.Outcome State Fault Refusal :=
  match i with
  | .frameEnc flag dest src data => Sys2Proof.Machine.execFrameEnc flag dest src data s
  | .frameDec bytes => Sys2Proof.Machine.execFrameDec bytes s
  | .sensPack nbPerson temperature airQuality => Sys2Proof.Machine.execSensPack nbPerson temperature airQuality s
  | .sensUnpack data => Sys2Proof.Machine.execSensUnpack data s
  | .tdmaAdd record => Sys2Proof.Machine.execTdmaAdd record s
  | .tdmaStart transport clock => Sys2Proof.Machine.execTdmaStart transport clock s
  | .tdmaStop => Sys2Proof.Machine.execTdmaStop s
  | .bpskMod bytes => Sys2Proof.Machine.execBpskMod bytes s
  | .chanApply signal noise => Sys2Proof.Machine.execChanApply signal noise s
  | .bpskDemod signal => Sys2Proof.Machine.execBpskDemod signal s

end Sys2Proof.Machine
end

