-- ==== Sys2Proof/WellFormed.lean ====
section
/-! DEFINITION. The operand domains the spec states (spec/00_scope.md R13): only CHAN.APPLY's noise strength has values
outside its domain; every other operand of every operation is in domain, an out-of-range one being masked or answered
with an error (R70, R71, R95, R122). -/

namespace Sys2Proof

/-- Every operand lies in the domain its operation's rule states (R13). -/
def Instr.wellFormed : Instr → Bool
  | .frameEnc _ _ _ _ => true
  | .frameDec _ => true
  | .sensPack _ _ _ => true
  | .sensUnpack _ => true
  | .tdmaAdd _ => true
  | .tdmaStart _ _ => true
  | .tdmaStop => true
  | .bpskMod _ => true
  | .chanApply _ noise => Machine.noiseInDomain noise
  | .bpskDemod _ => true

end Sys2Proof
end

