-- ==== Sys2Proof/Decode.lean ====
section
/-! DEFINITION. Requests on the host port as bytes: the decoder, the encoder after it, and the table-word reader.
The 4-bit operation code is spec/30_encoding.md R75 to R77; the spec gives the operands no byte format, so theirs is the
model's own. DESIGN CHOICE, safe: notes/assumptions/19.md. -/

namespace Sys2Proof

/-- The operation codes 0x0 to 0x9 (R76). -/
def Op.code : Op → BitVec 4
  | .frameEnc => 0x0#4
  | .frameDec => 0x1#4
  | .sensPack => 0x2#4
  | .sensUnpack => 0x3#4
  | .tdmaAdd => 0x4#4
  | .tdmaStart => 0x5#4
  | .tdmaStop => 0x6#4
  | .bpskMod => 0x7#4
  | .chanApply => 0x8#4
  | .bpskDemod => 0x9#4

/-- The operation of a code; 0xA to 0xF are reserved (R77). -/
def opOfCode (c : BitVec 4) : Option Op :=
  match c.toNat with
  | 0 => some .frameEnc
  | 1 => some .frameDec
  | 2 => some .sensPack
  | 3 => some .sensUnpack
  | 4 => some .tdmaAdd
  | 5 => some .tdmaStart
  | 6 => some .tdmaStop
  | 7 => some .bpskMod
  | 8 => some .chanApply
  | 9 => some .bpskDemod
  | _ => none

/-- The operation an instruction is a request for. -/
def Instr.op : Instr → Op
  | .frameEnc _ _ _ _ => .frameEnc
  | .frameDec _ => .frameDec
  | .sensPack _ _ _ => .sensPack
  | .sensUnpack _ => .sensUnpack
  | .tdmaAdd _ => .tdmaAdd
  | .tdmaStart _ _ => .tdmaStart
  | .tdmaStop => .tdmaStop
  | .bpskMod _ => .bpskMod
  | .chanApply _ _ => .chanApply
  | .bpskDemod _ => .bpskDemod

/-- The codes of the sensor kinds (R74). -/
def kindCode : SensorKind → BitVec 2
  | .occupancy => 0#2
  | .temperature => 1#2
  | .airQuality => 2#2
  | .unknown => 3#2

def kindOfCode (c : BitVec 2) : SensorKind :=
  match c.toNat with
  | 0 => .occupancy
  | 1 => .temperature
  | 2 => .airQuality
  | _ => .unknown

/-- The 22 bits of a source record: `rec[21:20]` kind, `rec[19:10]` dest_address, `rec[9:0]` src_address (R74). -/
def recordBits (r : SourceRecord) : BitVec 22 := kindCode r.kind ++ r.dest ++ r.src

def recordOfBits (b : BitVec 22) (port : Nat) : SourceRecord where
  kind := kindOfCode (b.extractLsb' 20 2)
  dest := b.extractLsb' 10 10
  src := b.extractLsb' 0 10
  port := port

/-- What a reader of operand bytes answers: the value and the bytes after it, or why there is none. -/
abbrev Parsed (α : Type) := Except DecodeError (α × List Byte)

/-- Read one operand, then go on with the bytes after it. -/
def andThen {α β : Type} (p : Parsed α) (f : α → List Byte → Parsed β) : Parsed β :=
  match p with
  | .error e => .error e
  | .ok (a, rest) => f a rest

/-- A natural number, 7 bits a byte, least significant first; a byte of 128 or more is followed by another. -/
def getNat : List Byte → Parsed Nat
  | [] => .error .truncatedOperand
  | b :: bs =>
    if b.toNat < 128 then .ok (b.toNat, bs)
    else andThen (getNat bs) fun n rest => .ok (b.toNat - 128 + 128 * n, rest)

/-- An integer: an even number stands for its half, an odd one for a negative integer. -/
def intOfNat (n : Nat) : Int := if n % 2 = 0 then (n / 2 : Nat) else -((n / 2 + 1 : Nat) : Int)

def getInt (bs : List Byte) : Parsed Int := andThen (getNat bs) fun n rest => .ok (intOfNat n, rest)

def getByte : List Byte → Parsed Byte
  | [] => .error .truncatedOperand
  | b :: bs => .ok (b, bs)

/-- A rational: its numerator and its denominator less one. -/
def getRat (bs : List Byte) : Parsed Rat :=
  andThen (getInt bs) fun num rest => andThen (getNat rest) fun den rest => .ok (mkRat num (den + 1), rest)

/-- A real: a tag byte for the outermost form, then its parts; terms at most `fuel` deep. -/
def getTerm : Nat → List Byte → Parsed RealTerm
  | 0, _ => .error .truncatedOperand
  | fuel + 1, bs =>
    let one (f : RealTerm → RealTerm) (rest : List Byte) : Parsed RealTerm :=
      andThen (getTerm fuel rest) fun x rest => .ok (f x, rest)
    let two (f : RealTerm → RealTerm → RealTerm) (rest : List Byte) : Parsed RealTerm :=
      andThen (getTerm fuel rest) fun x rest => andThen (getTerm fuel rest) fun y rest => .ok (f x y, rest)
    andThen (getByte bs) fun tag rest =>
      match tag.toNat with
      | 0 => andThen (getRat rest) fun q rest => .ok (.rat q, rest)
      | 1 => .ok (.pi, rest)
      | 2 => andThen (getNat rest) fun k rest => .ok (.named k, rest)
      | 3 => two .add rest
      | 4 => two .sub rest
      | 5 => two .mul rest
      | 6 => one .cos rest
      | 7 => one .sin rest
      | _ => .error (.badNumberTag tag)

/-- A number: a tag byte; a finite number follows it. -/
def getNumber (bs : List Byte) : Parsed Number :=
  andThen (getByte bs) fun tag rest =>
    match tag.toNat with
    | 0 => andThen (getRat rest) fun q rest => .ok (.fin q, rest)
    | 1 => .ok (.inf false, rest)
    | 2 => .ok (.inf true, rest)
    | 3 => .ok (.nan, rest)
    | 4 => .ok (.negZero, rest)
    | 5 => andThen (getTerm rest.length rest) fun t rest => .ok (.real t, rest)
    | _ => .error (.badNumberTag tag)

def getSample (bs : List Byte) : Parsed Sample :=
  andThen (getNumber bs) fun re rest => andThen (getNumber rest) fun im rest => .ok (⟨re, im⟩, rest)

/-- `n` values one after another. -/
def getMany {α : Type} (get : List Byte → Parsed α) : Nat → List Byte → Parsed (List α)
  | 0, bs => .ok ([], bs)
  | n + 1, bs => andThen (get bs) fun a rest => andThen (getMany get n rest) fun as rest => .ok (a :: as, rest)

/-- A sequence with its length before it (D36). -/
def getSeq {α : Type} (get : List Byte → Parsed α) (bs : List Byte) : Parsed (List α) :=
  andThen (getNat bs) fun n rest => getMany get n rest

def getRecord (bs : List Byte) : Parsed SourceRecord :=
  andThen (getNat bs) fun n rest =>
    if n < 2 ^ 22 then andThen (getNat rest) fun port rest => .ok (recordOfBits (BitVec.ofNat 22 n) port, rest)
    else .error .recordTooWide

/-- The operands of an operation, in the order R76 lists them. -/
def getOperands (op : Op) (bs : List Byte) : Parsed Instr :=
  match op with
  | .frameEnc =>
    andThen (getInt bs) fun flag bs => andThen (getInt bs) fun dest bs =>
      andThen (getInt bs) fun src bs => andThen (getInt bs) fun data bs => .ok (.frameEnc flag dest src data, bs)
  | .frameDec => andThen (getSeq getByte bs) fun b bs => .ok (.frameDec b, bs)
  | .sensPack =>
    andThen (getInt bs) fun nb bs => andThen (getInt bs) fun t bs =>
      andThen (getInt bs) fun aq bs => .ok (.sensPack nb t aq, bs)
  | .sensUnpack => andThen (getInt bs) fun data bs => .ok (.sensUnpack data, bs)
  | .tdmaAdd => andThen (getRecord bs) fun r bs => .ok (.tdmaAdd r, bs)
  | .tdmaStart => andThen (getNat bs) fun t bs => andThen (getNat bs) fun c bs => .ok (.tdmaStart t c, bs)
  | .tdmaStop => .ok (.tdmaStop, bs)
  | .bpskMod => andThen (getSeq getByte bs) fun b bs => .ok (.bpskMod b, bs)
  | .chanApply =>
    andThen (getSeq getSample bs) fun sig bs => andThen (getNumber bs) fun noise bs => .ok (.chanApply sig noise, bs)
  | .bpskDemod => andThen (getSeq getSample bs) fun sig bs => .ok (.bpskDemod sig, bs)

/-- One request off the front of the bytes: the operation code in the low four bits of the first byte (R75; its high
four bits are no part of a request), the operands after it. -/
def decode : List Byte → Parsed Instr
  | [] => .error .emptyRequest
  | b :: bs =>
    match opOfCode (b.extractLsb' 0 4) with
    | some op => getOperands op bs
    | none => .error (.reservedOpcode (b.extractLsb' 0 4))

/-- A whole request: what follows its operands is padding, bytes of zero. -/
def decodeRequest (bs : List Byte) : Except DecodeError Instr :=
  match decode bs with
  | .error e => .error e
  | .ok (i, rest) => if rest.all (· == 0#8) then .ok i else .error .trailingBytes

/-! The encoder. -/

/-- The digits of `getNat`, `fuel` of them at most before the last. -/
def putNatFuel : Nat → Nat → List Byte
  | 0, n => [BitVec.ofNat 8 (n % 128)]
  | fuel + 1, n =>
    if n < 128 then [BitVec.ofNat 8 n] else BitVec.ofNat 8 (128 + n % 128) :: putNatFuel fuel (n / 128)

def putNat (n : Nat) : List Byte := putNatFuel n.log2 n

def natOfInt : Int → Nat
  | .ofNat n => 2 * n
  | .negSucc n => 2 * n + 1

def putInt (z : Int) : List Byte := putNat (natOfInt z)

def putRat (q : Rat) : List Byte := putInt q.num ++ putNat (q.den - 1)

def putTerm : RealTerm → List Byte
  | .rat q => 0#8 :: putRat q
  | .pi => [1#8]
  | .named k => 2#8 :: putNat k
  | .add x y => 3#8 :: (putTerm x ++ putTerm y)
  | .sub x y => 4#8 :: (putTerm x ++ putTerm y)
  | .mul x y => 5#8 :: (putTerm x ++ putTerm y)
  | .cos x => 6#8 :: putTerm x
  | .sin x => 7#8 :: putTerm x

def putNumber : Number → List Byte
  | .fin q => 0#8 :: putRat q
  | .real t => 5#8 :: putTerm t
  | .inf false => [1#8]
  | .inf true => [2#8]
  | .nan => [3#8]
  | .negZero => [4#8]

def putSample (s : Sample) : List Byte := putNumber s.re ++ putNumber s.im

def putSeq {α : Type} (put : α → List Byte) (xs : List α) : List Byte := putNat xs.length ++ xs.flatMap put

def putRecord (r : SourceRecord) : List Byte := putNat (recordBits r).toNat ++ putNat r.port

def putOperands : Instr → List Byte
  | .frameEnc flag dest src data => putInt flag ++ putInt dest ++ putInt src ++ putInt data
  | .frameDec b => putSeq (fun x => [x]) b
  | .sensPack nb t aq => putInt nb ++ putInt t ++ putInt aq
  | .sensUnpack data => putInt data
  | .tdmaAdd r => putRecord r
  | .tdmaStart t c => putNat t ++ putNat c
  | .tdmaStop => []
  | .bpskMod b => putSeq (fun x => [x]) b
  | .chanApply sig noise => putSeq putSample sig ++ putNumber noise
  | .bpskDemod sig => putSeq putSample sig

/-- The bytes of a request: the operation code in the first byte, then the operands (R75). -/
def encode (i : Instr) : List Byte := (i.op.code.setWidth 8) :: putOperands i

/-- The bytes of a table row's word, the first at the lowest position, and zeros for the operands the table gives no
bits. -/
def requestOfWord (nbits w : Nat) : List Byte :=
  (List.range ((nbits + 7) / 8)).map (fun k => BitVec.ofNat 8 (w >>> (8 * k))) ++ List.replicate 8 0#8

/-- The instruction the decoder reads from a table row's word. -/
def decodeTableWord (nbits w : Nat) : Option Instr :=
  match decodeRequest (requestOfWord nbits w) with
  | .ok i => some i
  | .error _ => none

end Sys2Proof
end

