-- ==== Sys2Proof/Machine/Scheduler.lean ====
section
/-! DEFINITION. The slot step, phase by phase (spec/42_tdma_scheduler.md R126 to R131, R135; spec/10_state.md R27). A
phase that calls a collaborator takes two turns: one begins the call, one takes the answer; while there is no answer
the turn changes nothing (R137, U7 to U9). notes/assumptions/14.md, 15.md. -/

namespace Sys2Proof.Machine

/-- The default instance of `BUILD_FIELDS` (R128); for an unknown kind, which no registered source has, it is open. -/
def standardFields (p : Params) (r : SourceRecord) (v : Int) : FrameFields :=
  match r.kind with
  | .occupancy => ⟨flagData, r.dest.toNat, r.src.toNat, v, 0, 0⟩
  | .temperature => ⟨flagData, r.dest.toNat, r.src.toNat, 0, v, 0⟩
  | .airQuality => ⟨flagData, r.dest.toNat, r.src.toNat, 0, 0, ((p.aqTable.lookup v).getD (Config.aqTransform v)).toNat⟩
  | .unknown => Config.buildFields r v

/-- `BUILD_FIELDS` (R128). -/
def buildFields (p : Params) (r : SourceRecord) (v : Int) : FrameFields :=
  match p.buildFields with
  | .standard => standardFields p r v
  | .custom => Config.buildFields r v

/-- The frame of a reading: FRAME.ENC over SENS.PACK, none where either raises (R82, R126, R135). -/
def buildFrame (p : Params) (r : SourceRecord) (v : Int) : Option (BitVec 64) :=
  let f := buildFields p r v
  match sensPack f.nbPerson f.temperature f.airQuality with
  | some d => frameEncode p.encRange f.flag f.dest f.src d.toNat
  | none => none

/-- The end of a slot: the next source, or the first after the last (R131). -/
def advance (s : State) : State :=
  { s with slotIdx := (s.slotIdx + 1) % s.sources.length, slotPhase := .boundary, calling := false }

/-- READ: one `read_value()` call on the slot's source (R126, R50). -/
def readPhase (r : SourceRecord) (s : State) : StepResult :=
  if s.calling then
    match s.sensorIn with
    | .value v :: rest =>
      .next { s with sensorIn := rest, reading := v, calling := false, slotPhase := .build }
    | .fails :: rest => .next (endRunOnFault (.sensorReadFailed s.slotIdx) { s with sensorIn := rest })
    | [] => .next s
  else .next (emit (.sensorRead s.slotIdx r.port) { s with calling := true })

/-- BUILD (R128, R135). -/
def buildPhase (r : SourceRecord) (s : State) : StepResult :=
  match buildFrame s.params r s.reading with
  | some w => .next { s with txFrame := w, txWritten := true, calling := false, slotPhase := .transmit }
  | none => .next (endRunOnFault (.buildError s.slotIdx) s)

/-- TRANSMIT: one call with the 8 bytes of the frame; a failure is reported, not retried (R129, R187). -/
def transmitPhase (s : State) : StepResult :=
  if s.calling then
    match s.transportIn with
    | .ok :: rest => .next { s with transportIn := rest, calling := false, slotPhase := .suspend }
    | .fail :: rest =>
      let reported := emit (.event .transportFailure s.slotIdx) { s with transportIn := rest, calling := false }
      if s.params.suspendOnTxFail then .next { reported with slotPhase := .suspend } else .next (advance reported)
    | [] => .next s
  else if s.txWritten then .next (emit (.transmit s.transport (frameBytes s.txFrame)) { s with calling := true })
  else .fault .txFrameUnwritten

/-- SUSPEND: the clock is asked for `slot_duration / N` (R130); only its return ends the suspension (R196). -/
def suspendPhase (s : State) : StepResult :=
  if s.calling then
    match s.clockIn with
    | n + 1 => .next (advance { s with clockIn := n })
    | 0 => .next s
  else
    .next (emit (.suspend s.clock (numberDivNat s.params.arith s.slotDuration s.sources.length))
      { s with calling := true })

/-- The phases after the boundary check, for the slot's source. -/
def slotPhaseStep (r : SourceRecord) (s : State) : StepResult :=
  match s.slotPhase with
  | .boundary => .next { s with slotPhase := .read, calling := false }
  | .read => readPhase r s
  | .build => buildPhase r s
  | .transmit => transmitPhase s
  | .suspend => suspendPhase s

/-- The stop request is observed at a boundary and nowhere else (R127, R54). -/
def observesStop (s : State) : Bool := s.stopReq && decide (s.slotPhase = .boundary)

/-- A turn of the scheduler: nothing while stopped (R194), the end of the run where it observes the stop (R127), else one
move of the slot. -/
def schedulerTurn (s : State) : StepResult :=
  if s.running = false then .next s
  else if observesStop s then .next (endRun .ok s)
  else
    match s.sources[s.slotIdx]? with
    | some r => slotPhaseStep r s
    | none => .fault .slotIndexOutOfRange

end Sys2Proof.Machine
end

