-- ==== Sys2Proof/Machine/Fetch.lean ====
section
/-! DEFINITION. Who moves, and what the host asks for (spec/00_scope.md R16, spec/60_exceptions.md R197, R202). -/

namespace Sys2Proof.Machine

/-- What a turn comes to: an instruction to run in a state, or an outcome already. -/
inductive Fetched where
  | instr (i : Instr) (s : State)
  | done (o : StepResult)

/-- Why bytes that are no request are refused: a reserved code under its own name (R77). -/
def refusalOf : DecodeError → Refusal
  | .reservedOpcode op => .reservedOpcode op
  | e => .malformedRequest e

/-- The move `turns` names first; with none named the scheduler moves, and a stopped block does nothing (R211).
DESIGN CHOICE, safe: notes/assumptions/13.md. -/
def fetch (s : State) : Fetched :=
  match s.turns with
  | [] => .done (schedulerTurn s)
  | .host request :: rest =>
    match decodeRequest request with
    | .ok i => .instr i { s with turns := rest }
    | .error e => .done (.refused (refusalOf e))
  | .scheduler :: rest => .done (schedulerTurn { s with turns := rest })
  | .stopLine :: rest => .done (.next (requestStop { s with turns := rest }))
  | .resetLine :: rest => .done (takeReset { s with turns := rest })

/-- The turn that issues a table row's word as a request, put before all others. -/
def placeRequest (s : State) (nbits w : Nat) : State :=
  { s with turns := .host (requestOfWord nbits w) :: s.turns }

end Sys2Proof.Machine
end

