-- ==== Sys2Proof/Machine/Step.lean ====
section
/-! DEFINITION. One step of the machine, and how a request comes to be the next thing it runs. -/

namespace Sys2Proof.Machine

/-- One step: the move `turns` names, the host's requests through `exec`. -/
def step (s : State) : Host.Outcome State Fault Refusal :=
  match fetch s with
  | .instr i t => exec i t
  | .done o => o

/-- `s` with a table row's word as the request the host issues next (notes/assumptions/25.md). -/
def State.withFetchWord (s : State) (nbits w : Nat) : State := placeRequest s nbits w

end Sys2Proof.Machine
end

