-- ==== Sys2Proof/Safety.lean ====
section
/-! DEFINITION. What counts as a state the block can be in (spec/10_state.md R32 and the rules it is derived from), and
what counts as a run that has not gone wrong (spec/93_implementation_defined.md part 1). -/

namespace Sys2Proof.Machine

/-- R32 (a), (b), (c): a running scheduler has a source to serve, its index is a position of the list, and a stop is
pending only while it runs. -/
structure State.RunInv (s : State) : Prop where
  hasSource : s.running = true → 1 ≤ s.sources.length
  idxInRange : s.running = true → s.slotIdx < s.sources.length
  stopWhileRunning : s.stopReq = true → s.running = true

/-- R27, R194, U23: no slot is in progress while stopped, and from TRANSMIT on the frame has been built. -/
structure State.SlotInv (s : State) : Prop where
  stoppedAtBoundary : s.running = false → s.slotPhase = .boundary ∧ s.calling = false
  builtBeforeTransmit : s.slotPhase = .transmit → s.txWritten = true

/-- R21, R22, R23, R122, D25: registered sources have known kinds, there are at most MAX_SOURCES of them, and the cycle's
budget is a number not less than 0. -/
structure State.ListInv (s : State) : Prop where
  kindsKnown : ∀ r ∈ s.sources, r.kind ≠ .unknown
  withinCapacity : ∀ m, s.params.maxSources = some m → s.sources.length ≤ m
  durationNonNegative : numberNonNegative s.slotDuration = true

/-- The invariant of the block. -/
structure State.Inv (s : State) : Prop where
  run : s.RunInv
  slot : s.SlotInv
  list : s.ListInv

/-- The run has not met what spec/93 marks `fault` (U4, U8); a claim about a final state takes this as a premise. -/
def State.notGoneWrong (s : State) : Bool := s.faultRecord.isNone

end Sys2Proof.Machine
end

