-- ==== Sys2Proof/Certificates/Slice0/Obligations.lean ====
section
/-! DEFINITION. The statements for the provers, each over the rule or rules its docstring names. What the rules write with
shifts and products is written here on natural numbers, apart from the model's own layout functions. -/

namespace Sys2Proof.Statements

open Sys2Proof.Machine

/-- The checksum of R90 on natural numbers. -/
def crcNat (flag dest src data : Nat) : Nat :=
  let b := flag <<< 44 ||| dest <<< 34 ||| src <<< 24 ||| data
  (b >>> 40) % 256 ^^^ (b >>> 32) % 256 ^^^ (b >>> 24) % 256 ^^^ (b >>> 16) % 256 ^^^ (b >>> 8) % 256 ^^^ b % 256

/-- The four bytes of a 32-bit word, most significant first, after the wire inversion `2^32 - 1 - w` (R44, R63). -/
def invertedBytes (w : Nat) : List Byte :=
  let i := 2 ^ 32 - 1 - w
  [BitVec.ofNat 8 (i >>> 24), BitVec.ofNat 8 (i >>> 16), BitVec.ofNat 8 (i >>> 8), BitVec.ofNat 8 i]

/-- The 8 wire bytes of R92 for fields in range. -/
def wireBytes (flag dest src data : Nat) : List Byte :=
  invertedBytes (0xA5 <<< 24 ||| flag <<< 20 ||| dest <<< 10 ||| src)
    ++ invertedBytes (data <<< 8 ||| crcNat flag dest src data)

/-- The payload of R110 on natural numbers. -/
def payloadNat (nbPerson temperature airQuality : Int) : Nat :=
  (nbPerson % 256).toNat <<< 16 ||| (temperature % 256).toNat <<< 8 ||| (airQuality % 256).toNat

/-- Every operand of FRAME.ENC lies in its field's range (R61). -/
def InFields (flag dest src data : Int) : Prop :=
  (0 ≤ flag ∧ flag < 16) ∧ (0 ≤ dest ∧ dest < 1024) ∧ (0 ≤ src ∧ src < 1024) ∧ (0 ≤ data ∧ data < 2 ^ 24)

/-- A response to a request, put on the host port of `s` and nothing else changed. -/
def responded (s : State) (op : Op) (status : Status) (r : Result) : State :=
  { s with out := s.out ++ [.response op status r] }

/-- One bit of a byte sequence flipped: bit `k` of byte `j`. -/
def flipBit (b : List Byte) (j k : Nat) : List Byte := b.modify j fun x => x ^^^ (1#8 <<< k)

/-- The fields of eight bytes, first byte first, by R72 on natural numbers. -/
def decodedNat (b0 b1 b2 b3 b4 b5 b6 b7 : Byte) : DecodedFrame :=
  let w0 := 2 ^ 32 - 1 - (b0.toNat * 2 ^ 24 + b1.toNat * 2 ^ 16 + b2.toNat * 2 ^ 8 + b3.toNat)
  let w1 := 2 ^ 32 - 1 - (b4.toNat * 2 ^ 24 + b5.toNat * 2 ^ 16 + b6.toNat * 2 ^ 8 + b7.toNat)
  let flag := w0 / 2 ^ 20 % 16
  let dest := w0 / 2 ^ 10 % 1024
  let src := w0 % 1024
  let data := w1 / 2 ^ 8
  { sfd := BitVec.ofNat 8 (w0 / 2 ^ 24), flag := BitVec.ofNat 4 flag, dest := BitVec.ofNat 10 dest,
    src := BitVec.ofNat 10 src, data := BitVec.ofNat 24 data, crc := BitVec.ofNat 8 (w1 % 256),
    checksumValid := decide (w1 % 256 = crcNat flag dest src data) }

/-- The draw number `n` of a state from here on: one already fixed, else the free value of the random source. -/
def drawOf (s : State) (noise : Number) (n : Nat) : Number :=
  (s.drawIn[n]?).getD (Config.normalDraw s.rng.seed (s.rng.drawn + n) noise)

/-- A call of the random-source port. -/
def isDraw : Output → Bool
  | .draw _ => true
  | _ => false

def isTransmit : Output → Bool
  | .transmit _ _ => true
  | _ => false

/-- The slot index of a sensor read. -/
def readSlot : Output → Option Nat
  | .sensorRead slot _ => some slot
  | _ => none

/-- The duration of a suspension. -/
def suspendFor : Output → Option Number
  | .suspend _ d => some d
  | _ => none

/-- A number that is a rational. -/
def rationalOf : Number → Option Rat
  | .fin q => some q
  | _ => none

/-- The six codec and pipeline operations that hold no state (R34). -/
def isStateless : Op → Bool
  | .frameEnc => true
  | .frameDec => true
  | .sensPack => true
  | .sensUnpack => true
  | .bpskMod => true
  | .bpskDemod => true
  | _ => false

/-- The scheduler moves next: its turn is named first, with `rest` after it, or no turn is named. -/
def SchedulerNext (s : State) (rest : List Turn) : Prop :=
  s.turns = .scheduler :: rest ∨ s.turns = [] ∧ rest = []

/-- A finite number that is a real above 0, as a rational or as a term for it (R160, R171). -/
def AboveZero (x : Number) : Prop :=
  (∃ q : Rat, 0 < q ∧ x = .fin q) ∨ ∃ (t : RealTerm) (r : ℝ), denotes t r ∧ 0 < r ∧ x = .real t

/-- A finite number that is a real below 0 (R164). -/
def BelowZero (x : Number) : Prop :=
  (∃ q : Rat, q < 0 ∧ x = .fin q) ∨ ∃ (t : RealTerm) (r : ℝ), denotes t r ∧ r < 0 ∧ x = .real t

/-- A finite number that is 0, in every form; negative zero is one of them (notes/assumptions/5.md, 23.md). -/
def IsZero (x : Number) : Prop :=
  x = .fin 0 ∨ x = .negZero ∨ ∃ t : RealTerm, denotes t 0 ∧ x = .real t

/-- What D25 refuses as a budget: a negative number, negative infinity among them, or a NaN. -/
def BudgetRefused (x : Number) : Prop := BelowZero x ∨ x = .inf true ∨ x = .nan

/-- The scheduler is about to run a whole slot by itself: at a boundary of a running, unstopped scheduler, with no
other turn pending, on the source `r`. -/
structure SlotReady (s : State) (r : SourceRecord) : Prop where
  running : s.running = true
  noStop : s.stopReq = false
  atBoundary : s.slotPhase = .boundary
  noTurns : s.turns = []
  source : s.sources[s.slotIdx]? = some r

end Sys2Proof.Statements

open Sys2Proof Sys2Proof.Machine Sys2Proof.Statements

/-! FrameCodec -/

/-- R92 in the layout of D6: FRAME.ENC of operands in range answers `W0`, `W1` inverted, most significant byte first,
under either policy. -/
def Obligations.FrameEncAnswersInvertedWords : Prop :=
  ∀ (s : State) (flag dest src data : Nat), flag < 16 → dest < 1024 → src < 1024 → data < 2 ^ 24 →
    exec (.frameEnc flag dest src data) s
      = .next (responded s .frameEnc .ok (.bytes (wireBytes flag dest src data)))

/-- R93 as the spec's D4 and D5 decide it: under `mask` the answer is that of the operands modulo their fields; under
`reject` an operand outside its field raises `ValueOutOfRange` and nothing else changes, and operands in range are
encoded. -/
def Obligations.FrameEncRangePolicy : Prop :=
  ∀ (s : State) (flag dest src data : Int),
    (s.params.encRange = .mask ∨ InFields flag dest src data →
      exec (.frameEnc flag dest src data) s = .next (responded s .frameEnc .ok (.bytes
        (wireBytes (flag % 16).toNat (dest % 1024).toNat (src % 1024).toNat (data % 2 ^ 24).toNat))))
    ∧ (s.params.encRange = .reject → ¬ InFields flag dest src data →
      exec (.frameEnc flag dest src data) s = .next (responded s .frameEnc .valueOutOfRange .nothing))

/-- R95: FRAME.DEC of a sequence that is not 8 bytes long raises `InvalidFrameLength`; of one that is, nothing. -/
def Obligations.FrameDecRaisesOnOtherLengths : Prop :=
  ∀ (s : State) (b : List Byte),
    (b.length ≠ 8 → exec (.frameDec b) s = .next (responded s .frameDec .invalidFrameLength .nothing))
    ∧ (b.length = 8 → ∃ f : DecodedFrame, exec (.frameDec b) s = .next (responded s .frameDec .ok (.frame f)))

/-- R96: FRAME.DEC of eight bytes answers the fields of the inverted words and the checksum verdict. -/
def Obligations.FrameDecExtractsFields : Prop :=
  ∀ (s : State) (b0 b1 b2 b3 b4 b5 b6 b7 : Byte),
    exec (.frameDec [b0, b1, b2, b3, b4, b5, b6, b7]) s
      = .next (responded s .frameDec .ok (.frame (decodedNat b0 b1 b2 b3 b4 b5 b6 b7)))

/-- R91 (c), an inference of the spec, on FRAME.DEC: the verdict is true exactly when the last seven bytes fold to
0xFF, whatever the first is. -/
def Obligations.ChecksumValidIffBytesFoldToAllOnes : Prop :=
  ∀ (s : State) (b0 b1 b2 b3 b4 b5 b6 b7 : Byte), ∃ f : DecodedFrame,
    exec (.frameDec [b0, b1, b2, b3, b4, b5, b6, b7]) s = .next (responded s .frameDec .ok (.frame f))
      ∧ (f.checksumValid = true ↔ b1 ^^^ b2 ^^^ b3 ^^^ b4 ^^^ b5 ^^^ b6 ^^^ b7 = 0xFF#8)

/-- R97 and the spec's D7: the delimiter is returned as received and changes nothing else of what FRAME.DEC answers,
and the stored checksum is taken from the last byte. -/
def Obligations.FrameDecDoesNotCheckDelimiter : Prop :=
  ∀ (s : State) (b0 c0 b1 b2 b3 b4 b5 b6 b7 : Byte), ∃ f : DecodedFrame,
    exec (.frameDec [b0, b1, b2, b3, b4, b5, b6, b7]) s = .next (responded s .frameDec .ok (.frame f))
      ∧ f.sfd = ~~~b0 ∧ f.crc = ~~~b7
      ∧ exec (.frameDec [c0, b1, b2, b3, b4, b5, b6, b7]) s
          = .next (responded s .frameDec .ok (.frame { f with sfd := ~~~c0 }))

/-- R98: decoding what FRAME.ENC answered gives the four fields back, with the delimiter, the checksum and a true
verdict. -/
def Obligations.FrameRoundTrip : Prop :=
  ∀ (s t : State) (flag dest src data : Nat), flag < 16 → dest < 1024 → src < 1024 → data < 2 ^ 24 →
    ∃ b : List Byte,
      exec (.frameEnc flag dest src data) s = .next (responded s .frameEnc .ok (.bytes b))
      ∧ b.length = 8
      ∧ exec (.frameDec b) t = .next (responded t .frameDec .ok (.frame
          { sfd := 0xA5#8, flag := BitVec.ofNat 4 flag, dest := BitVec.ofNat 10 dest, src := BitVec.ofNat 10 src,
            data := BitVec.ofNat 24 data, crc := BitVec.ofNat 8 (crcNat flag dest src data), checksumValid := true }))

/-- R99, an inference of the spec: one flipped bit of a frame in bytes 1 to 7 is detected and in byte 0 is not; two
flipped bits at the same position of two of the bytes 1 to 7 are not detected. -/
def Obligations.BitFlipsDetectedAndNot : Prop :=
  ∀ (s : State) (flag dest src data j i k : Nat), flag < 16 → dest < 1024 → src < 1024 → data < 2 ^ 24 →
    j < 8 → i < 8 → k < 8 →
    (∃ f : DecodedFrame,
      exec (.frameDec (flipBit (wireBytes flag dest src data) j k)) s = .next (responded s .frameDec .ok (.frame f))
        ∧ f.checksumValid = decide (j = 0))
    ∧ (j ≠ i → 1 ≤ j → 1 ≤ i → ∃ f : DecodedFrame,
      exec (.frameDec (flipBit (flipBit (wireBytes flag dest src data) j k) i k)) s
          = .next (responded s .frameDec .ok (.frame f))
        ∧ f.checksumValid = true)

/-! SensorFrameCodec -/

/-- R110: SENS.PACK of a temperature in range answers the three bytes, the outer two modulo 256; of another it raises.
That a negative outer operand is reduced modulo 256 as well is the spec's general knowledge, its G1. -/
def Obligations.SensPackConcatenatesBytes : Prop :=
  ∀ (s : State) (nb t aq : Int),
    (-128 ≤ t → t ≤ 127 → exec (.sensPack nb t aq) s
      = .next (responded s .sensPack .ok (.data (BitVec.ofNat 24 (payloadNat nb t aq)))))
    ∧ (t < -128 ∨ 127 < t → exec (.sensPack nb t aq) s
      = .next (responded s .sensPack .valueOutOfRange .nothing))

/-- R111: SENS.PACK raises `ValueOutOfRange` when the temperature is below -128 or above 127, and in no other case. -/
def Obligations.SensPackRejectsTemperatures : Prop :=
  ∀ (s : State) (nb t aq : Int),
    exec (.sensPack nb t aq) s = .next (responded s .sensPack .valueOutOfRange .nothing) ↔ t < -128 ∨ 127 < t

/-- R112: SENS.UNPACK answers the three bytes, the middle one signed; a wider operand is reduced first (the spec's own
choice D39). -/
def Obligations.SensUnpackReadsBytes : Prop :=
  ∀ (s : State) (data : Int),
    let d : Nat := (data % 2 ^ 24).toNat
    let b : Nat := d / 256 % 256
    exec (.sensUnpack data) s = .next (responded s .sensUnpack .ok (.readings (BitVec.ofNat 8 (d / 65536))
      (if 128 ≤ b then (b : Int) - 256 else (b : Int)) (BitVec.ofNat 8 (d % 256))))

/-- R113: unpacking what SENS.PACK answered gives the three values back. That packing what SENS.UNPACK answered gives
the payload, and that out of range two occupancies are packed alike, are inferences of the spec. -/
def Obligations.SensRoundTrip : Prop :=
  (∀ (s u : State) (nb aq : Nat) (t : Int), nb < 256 → aq < 256 → -128 ≤ t → t ≤ 127 →
    ∃ d : BitVec 24,
      exec (.sensPack nb t aq) s = .next (responded s .sensPack .ok (.data d))
      ∧ exec (.sensUnpack d.toNat) u
          = .next (responded u .sensUnpack .ok (.readings (BitVec.ofNat 8 nb) t (BitVec.ofNat 8 aq))))
  ∧ (∀ (s u : State) (d : BitVec 24), ∃ (nb aq : BitVec 8) (t : Int),
      exec (.sensUnpack d.toNat) s = .next (responded s .sensUnpack .ok (.readings nb t aq))
      ∧ exec (.sensPack nb.toNat t aq.toNat) u = .next (responded u .sensPack .ok (.data d)))
  ∧ ∀ s : State, exec (.sensPack 259 0 0) s = exec (.sensPack 3 0 0) s

/-! TDMAScheduler: host operations -/

/-- R121 as the spec's D19 reads it: a source of a known kind registered while stopped, with room in the list, is
appended. -/
def Obligations.TdmaAddAppends : Prop :=
  ∀ (s : State) (r : SourceRecord), s.running = false → r.kind ≠ .unknown →
    (∀ m, s.params.maxSources = some m → s.sources.length < m) →
    exec (.tdmaAdd r) s
      = .next { s with sources := s.sources ++ [r], out := s.out ++ [.response .tdmaAdd .ok .nothing] }

/-- R122, R190 and the spec's D16, D31: while running TDMA.ADD raises `AlreadyRunning` whatever the kind; while
stopped an unknown kind raises `ConfigurationError`, in a full list too. -/
def Obligations.TdmaAddErrorsStateFirst : Prop :=
  ∀ (s : State) (r : SourceRecord),
    (s.running = true → exec (.tdmaAdd r) s = .next (responded s .tdmaAdd .alreadyRunning .nothing))
    ∧ (s.running = false → r.kind = .unknown →
        exec (.tdmaAdd r) s = .next (responded s .tdmaAdd .configurationError .nothing))

/-- R123, the spec's D27: a TDMA.ADD beyond MAX_SOURCES is refused. -/
def Obligations.TdmaAddRefusedBeyondCapacity : Prop :=
  ∀ (s : State) (r : SourceRecord) (m : Nat), s.running = false → r.kind ≠ .unknown →
    s.params.maxSources = some m → m ≤ s.sources.length → exec (.tdmaAdd r) s = .refused .sourceListFull

/-- R125 by the spec's D22: the entry actions of TDMA.START; nothing is answered yet. That the two bindings are held
as handles is the model's choice, notes/assumptions/26.md. -/
def Obligations.TdmaStartEntersRun : Prop :=
  ∀ (s : State) (transport clock : Nat), s.running = false → s.sources ≠ [] →
    exec (.tdmaStart transport clock) s
      = .next { s with running := true, stopReq := false, slotIdx := 0, slotPhase := .boundary, calling := false,
                       transport := transport, clock := clock }

/-- R124 and the spec's D20: TDMA.START fails at once while running and on an empty list, and changes nothing. -/
def Obligations.TdmaStartEntryChecks : Prop :=
  ∀ (s : State) (transport clock : Nat),
    (s.running = true →
      exec (.tdmaStart transport clock) s = .next (responded s .tdmaStart .alreadyRunning .nothing))
    ∧ (s.running = false → s.sources = [] →
      exec (.tdmaStart transport clock) s = .next (responded s .tdmaStart .noSourcesRegistered .nothing))

/-- R132 by the spec's D21: TDMA.STOP answers `Ok` at once; it sets `stop_req` while running and does nothing while
stopped. -/
def Obligations.TdmaStopRaisesSignal : Prop :=
  ∀ s : State,
    (s.running = true →
      exec .tdmaStop s = .next { s with stopReq := true, out := s.out ++ [.response .tdmaStop .ok .nothing] })
    ∧ (s.running = false → exec .tdmaStop s = .next (responded s .tdmaStop .ok .nothing))

/-! The pipeline -/

/-- R150: BPSK.MOD answers eight samples a byte; sample `8j + k` carries bit `7 - k` of byte `j`. -/
def Obligations.BpskModMapsBits : Prop :=
  ∀ (s : State) (b : List Byte), (∀ m, s.params.maxBytes = some m → b.length ≤ m) →
    ∃ sig : List Sample,
      exec (.bpskMod b) s = .next (responded s .bpskMod .ok (.signal sig))
      ∧ sig.length = 8 * b.length
      ∧ ∀ (j k : Nat) (hj : j < b.length), k < 8 →
          sig[8 * j + k]? = some (if b[j].getLsbD (7 - k) then ⟨.fin (-1), .fin 0⟩ else ⟨.fin 1, .fin 0⟩)

/-- R41, R13 and the spec's D14: a sequence longer than MAX_BYTES is outside BPSK.MOD's domain and refused. -/
def Obligations.BpskModRefusedBeyondMaxBytes : Prop :=
  ∀ (s : State) (b : List Byte) (m : Nat), s.params.maxBytes = some m → m < b.length →
    exec (.bpskMod b) s = .refused .sequenceTooLong

/-- R162 by the spec's D11: at zero noise CHAN.APPLY answers the signal itself; how many draws the random source gives
is not said, and an empty signal takes none. That draws asked at zero noise present that noise as their scale is the
model's choice, notes/assumptions/33.md, and so is that a negative zero is zero noise, 5.md, 23.md. -/
def Obligations.ChanApplyZeroNoiseIsIdentity : Prop :=
  ∀ (s : State) (sig : List Sample) (noise : Number), IsZero noise →
    ∃ n : Nat, (sig = [] → n = 0) ∧
      exec (.chanApply sig noise) s
        = .next { s with rng := ⟨s.rng.seed, s.rng.drawn + n⟩, drawIn := s.drawIn.drop n,
                         out := s.out ++ List.replicate n (.draw noise) ++ [.response .chanApply .ok (.signal sig)] }

/-- R160, R161, R165, R166, R201 and the spec's D10: at a noise strength above 0 sample `k` is rotated by draw `2k`
and draw `2k + 1` is then added to its real component only; two draws a sample are asked of the random source, each
with the strength as its scale. -/
def Obligations.ChanApplyRotatesThenAdds : Prop :=
  ∀ (s : State) (sig : List Sample) (noise : Number), AboveZero noise →
    ∃ ys : List Sample,
      exec (.chanApply sig noise) s
        = .next { s with rng := ⟨s.rng.seed, s.rng.drawn + 2 * sig.length⟩, drawIn := s.drawIn.drop (2 * sig.length),
                         out := s.out ++ List.replicate (2 * sig.length) (.draw noise)
                           ++ [.response .chanApply .ok (.signal ys)] }
      ∧ ys.length = sig.length
      ∧ ∀ (k : Nat) (hk : k < sig.length),
          let a := s.params.arith
          let phi := drawOf s noise (2 * k)
          let eta := drawOf s noise (2 * k + 1)
          ys[k]? = some
            { re := numberAdd a (numberSub a (numberMul a sig[k].re (numberCos a phi))
                (numberMul a sig[k].im (numberSin a phi))) eta
              im := numberAdd a (numberMul a sig[k].re (numberSin a phi)) (numberMul a sig[k].im (numberCos a phi)) }

/-- R160's example over the reals: with every phase drawn as 0, each offset is added to the real component and the
imaginary one is left alone. Rests on the model's exact arithmetic, notes/assumptions/2.md and 3.md. -/
def Obligations.ChanApplyAddsOffsetToRealPart : Prop :=
  ∀ (s : State) (points : List (Rat × Rat × Rat)) (q : Rat), 0 < q → s.params.arith = .exact →
    s.drawIn = points.flatMap (fun p => [.fin 0, .fin p.2.2]) →
    exec (.chanApply (points.map fun p => ⟨.fin p.1, .fin p.2.1⟩) (.fin q)) s
      = .next { s with rng := ⟨s.rng.seed, s.rng.drawn + 2 * points.length⟩, drawIn := [],
                       out := s.out ++ List.replicate (2 * points.length) (.draw (.fin q)) ++ [.response .chanApply .ok
                         (.signal (points.map fun p => ⟨.fin (p.1 + p.2.2), .fin p.2.1⟩))] }

/-- R164, the spec's D12: a negative, infinite or NaN noise strength is refused. -/
def Obligations.ChanApplyRefusesNoise : Prop :=
  ∀ (s : State) (sig : List Sample) (noise : Number),
    BelowZero noise ∨ (∃ n, noise = .inf n) ∨ noise = .nan →
    exec (.chanApply sig noise) s = .refused .noiseStrengthOutOfDomain

/-- R170, R172, and for zeros, infinities and NaN R171 by the spec's D13 and G4: BPSK.DEMOD answers `floor(L / 8)`
bytes; bit `7 - k` of byte `j` is whether the real component of sample `8j + k` is greater than 0. -/
def Obligations.BpskDemodSlicesAndPacks : Prop :=
  ∀ (s : State) (sig : List Sample), ∃ b : List Byte,
    exec (.bpskDemod sig) s = .next (responded s .bpskDemod .ok (.bytes b))
    ∧ b.length = sig.length / 8
    ∧ ∀ (j k : Nat) (hj : j < b.length) (hk : 8 * j + k < sig.length), k < 8 →
        (b[j].getLsbD (7 - k) = true ↔ AboveZero sig[8 * j + k].re ∨ sig[8 * j + k].re = .inf false)

/-- R173: what BPSK.DEMOD answers of the signal BPSK.MOD answered is the complement of every byte, and a channel
without noise between them changes nothing. That draws the channel then asks for have a scale of 0 is the model's
choice, notes/assumptions/33.md. -/
def Obligations.DemodOfModComplements : Prop :=
  ∀ (s t u : State) (b : List Byte), (∀ m, s.params.maxBytes = some m → b.length ≤ m) →
    ∃ (sig : List Sample) (v : State),
      exec (.bpskMod b) s = .next (responded s .bpskMod .ok (.signal sig))
      ∧ exec (.chanApply sig (.fin 0)) u = .next v
      ∧ (∃ n, v.out = u.out ++ List.replicate n (.draw (.fin 0)) ++ [.response .chanApply .ok (.signal sig)])
      ∧ exec (.bpskDemod sig) t = .next (responded t .bpskDemod .ok (.bytes (b.map fun x => ~~~x)))

/-- R174, an inference of the spec: a frame sent through the whole pipeline at zero noise comes back complemented;
FRAME.DEC of it answers the complement of every field with a false verdict, and FRAME.DEC of its complement the fields
sent with a true one. That draws asked at zero noise have a scale of 0 is the model's choice, notes/assumptions/33.md. -/
def Obligations.PipelineComplementsEveryFrame : Prop :=
  ∀ (s1 s2 s3 s4 s5 : State) (flag dest src data : Nat), flag < 16 → dest < 1024 → src < 1024 → data < 2 ^ 24 →
    (∀ m, s2.params.maxBytes = some m → 8 ≤ m) →
    ∃ (b : List Byte) (sig : List Sample) (t3 : State),
      exec (.frameEnc flag dest src data) s1 = .next (responded s1 .frameEnc .ok (.bytes b))
      ∧ exec (.bpskMod b) s2 = .next (responded s2 .bpskMod .ok (.signal sig))
      ∧ exec (.chanApply sig (.fin 0)) s3 = .next t3
      ∧ (∃ n, t3.out = s3.out ++ List.replicate n (.draw (.fin 0)) ++ [.response .chanApply .ok (.signal sig)])
      ∧ exec (.bpskDemod sig) s4 = .next (responded s4 .bpskDemod .ok (.bytes (b.map fun x => ~~~x)))
      ∧ exec (.frameDec (b.map fun x => ~~~x)) s5 = .next (responded s5 .frameDec .ok (.frame
          { sfd := 0x5A#8, flag := ~~~(BitVec.ofNat 4 flag), dest := ~~~(BitVec.ofNat 10 dest),
            src := ~~~(BitVec.ofNat 10 src), data := ~~~(BitVec.ofNat 24 data),
            crc := ~~~(BitVec.ofNat 8 (crcNat flag dest src data)), checksumValid := false }))
      ∧ exec (.frameDec b) s5 = .next (responded s5 .frameDec .ok (.frame
          { sfd := 0xA5#8, flag := BitVec.ofNat 4 flag, dest := BitVec.ofNat 10 dest, src := BitVec.ofNat 10 src,
            data := BitVec.ofNat 24 data, crc := BitVec.ofNat 8 (crcNat flag dest src data), checksumValid := true }))

/-! The slot step -/

/-- R126, R52: left to itself, with every collaborator answering, the scheduler reads the slot's source, transmits the
frame built of the reading, suspends for `slot_duration / N` and goes on to the next source, in this order; the eight
turns it takes are the model's own count, notes/assumptions/15.md. -/
def Obligations.SlotRunsInOrder : Prop :=
  ∀ (s : State) (r : SourceRecord) (v : Int) (w : BitVec 64) (sensors : List SensorAnswer)
    (transports : List TransportAnswer) (c : Nat), SlotReady s r →
    s.sensorIn = .value v :: sensors → s.transportIn = .ok :: transports → s.clockIn = c + 1 →
    buildFrame s.params r v = some w →
    Host.Core.run Sys2Proof.core 8 s
      = .next { s with sensorIn := sensors, transportIn := transports, clockIn := c, reading := v, txFrame := w,
                       txWritten := true, calling := false, slotIdx := (s.slotIdx + 1) % s.sources.length,
                       out := s.out ++ [.sensorRead s.slotIdx r.port, .transmit s.transport (frameBytes w),
                         .suspend s.clock (numberDivNat s.params.arith s.slotDuration s.sources.length)] }

/-- R129, R187 by the spec's D24: a slot whose transmit fails reports the event with its slot index, does not retry,
and goes on to the next source, after a suspension exactly where SUSPEND_ON_TX_FAIL is true. The eight and six turns
it takes are the model's own count, notes/assumptions/15.md. -/
def Obligations.FailedTransmitReportedNotRetried : Prop :=
  ∀ (s : State) (r : SourceRecord) (v : Int) (w : BitVec 64) (sensors : List SensorAnswer)
    (transports : List TransportAnswer) (c : Nat), SlotReady s r →
    s.sensorIn = .value v :: sensors → s.transportIn = .fail :: transports → s.clockIn = c + 1 →
    buildFrame s.params r v = some w →
    let done := { s with sensorIn := sensors, transportIn := transports, reading := v, txFrame := w, txWritten := true,
                         calling := false, slotIdx := (s.slotIdx + 1) % s.sources.length }
    let sent := s.out ++ [.sensorRead s.slotIdx r.port, .transmit s.transport (frameBytes w),
      .event .transportFailure s.slotIdx]
    (s.params.suspendOnTxFail = true → Host.Core.run Sys2Proof.core 8 s
      = .next { done with clockIn := c, out := sent ++
          [.suspend s.clock (numberDivNat s.params.arith s.slotDuration s.sources.length)] })
    ∧ (s.params.suspendOnTxFail = false → Host.Core.run Sys2Proof.core 6 s = .next { done with out := sent })

/-- R128, the default of the spec's D17: under the default `BUILD_FIELDS` the frame of a reading is FRAME.ENC of flag
1, the source's addresses and SENS.PACK of the reading in its kind's sub-field, zeros in the others; air quality
through `AQ_TRANSFORM`. -/
def Obligations.StandardFrameOfReading : Prop :=
  ∀ (p : Params) (r : SourceRecord) (v : Int), p.buildFields = .standard →
    (r.kind = .occupancy → (buildFrame p r v).map frameBytes
      = some (wireBytes 1 r.dest.toNat r.src.toNat (payloadNat v 0 0)))
    ∧ (r.kind = .temperature → -128 ≤ v → v ≤ 127 → (buildFrame p r v).map frameBytes
      = some (wireBytes 1 r.dest.toNat r.src.toNat (payloadNat 0 v 0)))
    ∧ (r.kind = .temperature → v < -128 ∨ 127 < v → buildFrame p r v = none)
    ∧ (r.kind = .airQuality → ∃ aq : BitVec 8, (p.aqTable.lookup v = none → aq = Config.aqTransform v)
        ∧ (∀ x, p.aqTable.lookup v = some x → aq = x)
        ∧ (buildFrame p r v).map frameBytes
            = some (wireBytes 1 r.dest.toNat r.src.toNat (payloadNat 0 0 aq.toNat)))

/-- R133, R130, R131: a cycle of N sources issues exactly N transmissions whatever the transport answers and reads the
sources in registration order; its suspensions are of `slot_duration / N`, one a source, but for those
SUSPEND_ON_TX_FAIL = false leaves out, and over the reals sum to `slot_duration` less `slot_duration / N` for each of
these; then it is at the first source again. The count of turns is the model's own, notes/assumptions/15.md, and the
exact sum rests on its exact arithmetic, 2.md. -/
def Obligations.CycleIsFair : Prop :=
  ∀ (s : State) (vs : List Int) (sensors : List SensorAnswer) (as transports : List TransportAnswer) (c : Nat),
    let n := s.sources.length
    let lost := if s.params.suspendOnTxFail then 0 else as.count .fail
    s.running = true → s.stopReq = false → s.slotPhase = .boundary → s.turns = [] → s.slotIdx = 0 → s.sources ≠ [] →
    vs.length = n → as.length = n →
    s.sensorIn = vs.map .value ++ sensors → s.transportIn = as ++ transports → s.clockIn = n - lost + c →
    (∀ p ∈ s.sources.zip vs, (buildFrame s.params p.1 p.2).isSome = true) →
    ∃ (t : State) (outs : List Output),
      Host.Core.run Sys2Proof.core (8 * n - 2 * lost) s = .next t
      ∧ t.out = s.out ++ outs
      ∧ (outs.filter isTransmit).length = n
      ∧ outs.filterMap readSlot = List.range n
      ∧ outs.filterMap suspendFor = List.replicate (n - lost) (numberDivNat s.params.arith s.slotDuration n)
      ∧ (∀ d : Rat, s.params.arith = .exact → s.slotDuration = .fin d →
          ((outs.filterMap suspendFor).filterMap rationalOf).sum = d - lost * (d / n))
      ∧ t.slotIdx = 0 ∧ t.slotPhase = .boundary ∧ t.running = true ∧ t.sources = s.sources

/-- R127 by the spec's D23: at a boundary a pending stop ends the run: the flags are cleared, `slot_idx` stays, no
collaborator is called and TDMA.START answers `Ok`. -/
def Obligations.StopObservedAtBoundary : Prop :=
  ∀ (s : State) (rest : List Turn), s.running = true → s.stopReq = true → s.slotPhase = .boundary →
    SchedulerNext s rest →
    step s = .next { s with turns := rest, running := false, stopReq := false, calling := false,
                            out := s.out ++ [.response .tdmaStart .ok .nothing] }

/-- R54, R127 and for errors the spec's D18: inside a slot the scheduler does not look at the stop signal: its turn
leaves both flags as they are, unless an error of the slot ends the run (R135). -/
def Obligations.StopNotObservedInsideSlot : Prop :=
  ∀ (s t : State) (rest : List Turn), s.running = true → s.slotPhase ≠ .boundary → SchedulerNext s rest →
    step s = .next t →
    (t.running = true ∧ t.stopReq = s.stopReq)
    ∨ (t.running = false ∧ t.stopReq = false ∧ (s.slotPhase = .read ∨ s.slotPhase = .build)
        ∧ t.out = s.out ++ [.response .tdmaStart .valueOutOfRange .nothing])

/-- R216, an inference of the spec: after a stop has been raised, a scheduler left to itself begins at most one more
transmission, however long it is run. -/
def Obligations.AtMostOneTransmitAfterStop : Prop :=
  ∀ (s t : State) (n : Nat), s.running = true → s.stopReq = true → s.turns = [] →
    Host.Core.run Sys2Proof.core n s = .next t →
    ∃ outs, t.out = s.out ++ outs ∧ (outs.filter isTransmit).length ≤ 1

/-- R127, R137: with a stop raised and an answer ready for every call, the run ends within one slot. The bound of
eight turns is the model's own count, notes/assumptions/15.md. -/
def Obligations.StopEndsRunWithinSlot : Prop :=
  ∀ s : State, s.Inv → s.running = true → s.stopReq = true → s.turns = [] →
    s.sensorIn ≠ [] → s.transportIn ≠ [] → 0 < s.clockIn →
    ∃ (n : Nat) (t : State), n ≤ 8 ∧ Host.Core.run Sys2Proof.core n s = .next t ∧ t.running = false

/-- R137, R217: a collaborator that does not answer stalls the scheduler for ever, a pending stop included. That a
turn then changes nothing is the model's form of it, notes/assumptions/14.md. -/
def Obligations.UnansweredCallStalls : Prop :=
  ∀ (s : State) (n : Nat), s.running = true → s.slotIdx < s.sources.length → s.turns = [] → s.calling = true →
    (s.slotPhase = .read ∧ s.sensorIn = [] ∨ s.slotPhase = .transmit ∧ s.transportIn = []
      ∨ s.slotPhase = .suspend ∧ s.clockIn = 0) →
    Host.Core.run Sys2Proof.core n s = .next s

/-- R135 by the spec's D18 and U8: a reading whose frame cannot be built, and a sensor read that fails, end the run:
nothing is transmitted, no suspension is made, and TDMA.START answers `ValueOutOfRange`. The fault record, which keeps
the first fault, is the model's, notes/assumptions/16.md; so are the phase the run leaves, 17.md, and that an error of
FRAME.ENC counts as one of SENS.PACK, 27.md. -/
def Obligations.BuildErrorEndsRun : Prop :=
  ∀ (s : State) (rest : List Turn) (r : SourceRecord), s.running = true → SchedulerNext s rest →
    s.sources[s.slotIdx]? = some r →
    let ended : State :=
      { s with turns := rest, running := false, stopReq := false, slotPhase := .boundary, calling := false,
               out := s.out ++ [.response .tdmaStart .valueOutOfRange .nothing] }
    (s.slotPhase = .build → buildFrame s.params r s.reading = none →
      step s = .next { ended with faultRecord := some (s.faultRecord.getD (.buildError s.slotIdx)) })
    ∧ (∀ sensors, s.slotPhase = .read → s.calling = true → s.sensorIn = .fails :: sensors →
      step s = .next { ended with sensorIn := sensors,
                                  faultRecord := some (s.faultRecord.getD (.sensorReadFailed s.slotIdx)) })

/-- R131, an inference of the spec: at the end of a slot the index goes to the next source, from the last to the
first. -/
def Obligations.IndexAdvancesAndWraps : Prop :=
  ∀ (s : State) (rest : List Turn) (n : Nat), s.running = true → s.slotPhase = .suspend → s.calling = true →
    SchedulerNext s rest → s.slotIdx < s.sources.length → s.clockIn = n + 1 →
    step s = .next { s with turns := rest, slotIdx := if s.slotIdx + 1 = s.sources.length then 0 else s.slotIdx + 1,
                            slotPhase := .boundary, calling := false, clockIn := n }

/-- R202 by the spec's D1: the stop line has the effect of TDMA.STOP on the state. That it answers nothing is the
model's choice, notes/assumptions/29.md. -/
def Obligations.StopLineIsStop : Prop :=
  ∀ (s : State) (rest : List Turn), s.turns = .stopLine :: rest →
    step s = .next { s with turns := rest, stopReq := s.running || s.stopReq }

/-! Reset and idle -/

/-- R33, R210 by the spec's D28: what reset of a stopped block leaves, all of it. That the parameters, the queues, the
outputs and the fault record stay is the model's choice, notes/assumptions/24.md, and so are the values of `tx_frame`,
the reading, the call in progress and the bindings, 10.md, 15.md, 26.md. -/
def Obligations.ResetLinePutsResetValues : Prop :=
  ∀ (s : State) (rest : List Turn), s.turns = .resetLine :: rest → s.running = false →
    ¬ BudgetRefused s.params.slotDuration →
    step s = .next { s with turns := rest, sources := [], running := false, stopReq := false, slotIdx := 0,
                            slotPhase := .boundary, slotDuration := s.params.slotDuration,
                            rng := ⟨s.params.rngSeed, 0⟩, txFrame := 0, txWritten := false, calling := false,
                            reading := 0, transport := 0, clock := 0 }

/-- R212 by the spec's D29, and D25: reset during a run, and a budget outside its domain at reset and at construction,
are refused; every other budget is taken at construction. That negative infinity counts as negative and positive
infinity is taken is the model's, notes/assumptions/24.md. -/
def Obligations.ResetRefusals : Prop :=
  (∀ (s : State) (rest : List Turn), s.turns = .resetLine :: rest →
    (s.running = true → step s = .refused .resetWhileRunning)
    ∧ (s.running = false → BudgetRefused s.params.slotDuration →
        step s = .refused .slotDurationOutOfDomain))
  ∧ ∀ p : Params, (BudgetRefused p.slotDuration → construct p = .refused .slotDurationOutOfDomain)
      ∧ (¬ BudgetRefused p.slotDuration → construct p = .next (State.resetValues p))

/-- R211 by the spec's D28: a stopped block with nothing on its ports does nothing, however long it waits. -/
def Obligations.StoppedBlockWaits : Prop :=
  ∀ (s : State) (n : Nat), s.running = false → s.turns = [] → Host.Core.run Sys2Proof.core n s = .next s

/-! The whole machine -/

/-- R32, an inference of the spec, and the rules it is derived from: every step keeps the invariant. That the phase is
BOUNDARY after a run has ended, by an error too, is the model's deduction, notes/assumptions/17.md. -/
def Obligations.StepKeepsInvariant : Prop :=
  ∀ s t : State, s.Inv → step s = .next t → t.Inv

/-- The invariant holds at reset and after every construction that is not refused (R33, the spec's D28 and D25). -/
def Obligations.InvariantAtReset : Prop :=
  State.reset.Inv ∧ State.reset.notGoneWrong = true ∧ construct Params.default = .next State.reset
    ∧ ∀ (p : Params) (s : State), construct p = .next s → s.Inv ∧ s.notGoneWrong = true

/-- R32 (b), U23: from a state that meets the invariant no step stops with a fault. -/
def Obligations.InvariantExcludesFaults : Prop :=
  ∀ (s : State) (f : Fault), s.Inv → step s ≠ .fault f

/-- R32 (d), R55, inferences of the spec: no step of a running block changes the source list. -/
def Obligations.SourcesFixedWhileRunning : Prop :=
  ∀ s t : State, s.running = true → step s = .next t → t.sources = s.sources

/-- R194 by the spec's D35 and D18: the running mode is entered only by a TDMA.START and left only at a boundary that
observes the stop or on an error of the slot (R135). That such an error leaves a fault record is the model's own,
notes/assumptions/16.md. -/
def Obligations.ModeChangesOnlyAsStated : Prop :=
  ∀ s t : State, step s = .next t →
    (s.running = false → t.running = true →
      ∃ (b : List Byte) (rest : List Turn) (tr c : Nat),
        s.turns = .host b :: rest ∧ decodeRequest b = .ok (.tdmaStart tr c) ∧ s.sources ≠ [])
    ∧ (s.running = true → t.running = false →
      (s.stopReq = true ∧ s.slotPhase = .boundary ∧ t.out = s.out ++ [.response .tdmaStart .ok .nothing])
      ∨ ((s.slotPhase = .read ∨ s.slotPhase = .build) ∧ t.faultRecord ≠ none
          ∧ t.out = s.out ++ [.response .tdmaStart .valueOutOfRange .nothing]))

/-- R189: the stop signal is raised only while running, and only by TDMA.STOP or the stop line. -/
def Obligations.StopSignalHasOneSource : Prop :=
  ∀ s t : State, step s = .next t → s.stopReq = false → t.stopReq = true →
    s.running = true ∧ ((∃ rest, s.turns = .stopLine :: rest)
      ∨ ∃ (b : List Byte) (rest : List Turn), s.turns = .host b :: rest ∧ decodeRequest b = .ok .tdmaStop)

/-- R26: no step puts the slot index anywhere but where it was, at the next source, or at the first. -/
def Obligations.SlotIndexNeverJumps : Prop :=
  ∀ s t : State, step s = .next t →
    t.slotIdx = s.slotIdx ∨ t.slotIdx = (s.slotIdx + 1) % s.sources.length ∨ t.slotIdx = 0

/-- R23, R9 by the spec's D25: no step but a reset writes the cycle's budget, none writes the parameters, and a reset
takes the budget from them. -/
def Obligations.SlotDurationFixed : Prop :=
  ∀ s t : State, step s = .next t →
    t.params = s.params ∧ (t.slotDuration = s.slotDuration
      ∨ (∃ rest, s.turns = .resetLine :: rest) ∧ t.slotDuration = s.params.slotDuration)

/-- R34, an inference of the spec: what each operation can write. -/
def Obligations.OperationsWriteOnlyTheirState : Prop :=
  ∀ (i : Instr) (s t : State), exec i s = .next t →
    (isStateless i.op = true → t = { s with out := t.out })
    ∧ (i.op = .chanApply → t = { s with rng := t.rng, drawIn := t.drawIn, out := t.out })
    ∧ (i.op = .tdmaAdd → t = { s with sources := t.sources, out := t.out })
    ∧ (i.op = .tdmaStart →
        t = { s with running := t.running, stopReq := t.stopReq, slotIdx := t.slotIdx, slotPhase := t.slotPhase,
                     calling := t.calling, transport := t.transport, clock := t.clock, out := t.out })
    ∧ (i.op = .tdmaStop → t = { s with stopReq := t.stopReq, out := t.out })

/-- R34's row of the slot step, with what R126 and R135 need besides: what a turn of the scheduler can write. The
list, the budget, the bindings, the random source and the parameters are not among it. -/
def Obligations.SchedulerWritesOnlyItsState : Prop :=
  ∀ (s t : State) (rest : List Turn), SchedulerNext s rest → step s = .next t →
    t = { s with turns := rest, running := t.running, stopReq := t.stopReq, slotIdx := t.slotIdx, slotPhase := t.slotPhase,
                 txFrame := t.txFrame, txWritten := t.txWritten, calling := t.calling, reading := t.reading,
                 faultRecord := t.faultRecord, sensorIn := t.sensorIn, transportIn := t.transportIn,
                 clockIn := t.clockIn, out := t.out }

/-- R192: no step clears or replaces the fault record. The record is the model's, notes/assumptions/16.md. -/
def Obligations.FaultRecordKept : Prop :=
  ∀ (s t : State) (f : RunFault), s.faultRecord = some f → step s = .next t → t.faultRecord = some f

/-- R191 by the spec's D30: an operation that answers an error writes no state and returns no result. -/
def Obligations.ErrorsWriteNoState : Prop :=
  ∀ (i : Instr) (s t : State) (op : Op) (e : Status) (r : Result), exec i s = .next t →
    t.out = s.out ++ [.response op e r] → e ≠ .ok → t = responded s op e .nothing ∧ op = i.op

/-- R56, R163 by the spec's D32: the answer of a codec or pipeline operation depends on the parameters and the random
source alone, not on where the scheduler is. -/
def Obligations.CodecAnswersIgnoreScheduler : Prop :=
  ∀ (i : Instr) (s1 s2 t1 : State), isStateless i.op = true ∨ i.op = .chanApply →
    s1.params = s2.params → s1.rng = s2.rng → s1.drawIn = s2.drawIn → exec i s1 = .next t1 →
    ∃ (t2 : State) (outs : List Output), exec i s2 = .next t2 ∧ t1.out = s1.out ++ outs ∧ t2.out = s2.out ++ outs
      ∧ t1.rng = t2.rng ∧ t1.drawIn = t2.drawIn

/-- R197, R203: a step never takes back what is on the ports, and beside draws it adds at most one thing. That the
ports' output is kept as a list is the model's own form of it, notes/assumptions/18.md. -/
def Obligations.OutputOnlyGrows : Prop :=
  ∀ s t : State, step s = .next t → ∃ outs, t.out = s.out ++ outs ∧ (outs.filter fun o => !isDraw o).length ≤ 1

/-! Requests -/

/-- Decoding an encoded request, with any padding of zeros, gives it back. The byte format is the model's,
notes/assumptions/19.md. -/
def Obligations.RequestRoundTrip : Prop :=
  ∀ (i : Instr) (padding : Nat), decodeRequest (encode i ++ List.replicate padding 0#8) = .ok i

/-- R76, the codes of the spec's D2: the ten operation codes, each with operands of zero, name the ten operations. -/
def Obligations.TableWordsDecode : Prop :=
  (List.range 10).map (fun w => (decodeTableWord 8 w).map Instr.op)
    = [.frameEnc, .frameDec, .sensPack, .sensUnpack, .tdmaAdd, .tdmaStart, .tdmaStop, .bpskMod, .chanApply,
       .bpskDemod].map some

/-- R77, the spec's D2: a request with an operation code of 0xA to 0xF is refused, whatever follows it. That the code
is the low four bits of the first byte is the model's choice, notes/assumptions/19.md. -/
def Obligations.ReservedCodesRefused : Prop :=
  ∀ (s : State) (b : Byte) (operands : List Byte) (rest : List Turn), s.turns = .host (b :: operands) :: rest →
    10 ≤ b.toNat % 16 → step s = .refused (.reservedOpcode (BitVec.ofNat 4 b.toNat))

/-- A host turn whose bytes decode to an instruction runs it in the state with that turn taken; a turn of the
scheduler, named or not, runs the scheduler. Turns are the model's form of R16, notes/assumptions/13.md. -/
def Obligations.HostTurnRunsDecodedInstruction : Prop :=
  (∀ (s : State) (b : List Byte) (rest : List Turn) (i : Instr), s.turns = .host b :: rest →
    decodeRequest b = .ok i → step s = exec i { s with turns := rest })
  ∧ ∀ (s : State) (rest : List Turn), SchedulerNext s rest → step s = schedulerTurn { s with turns := rest }
end

