-- ==== Sys2Proof/Laws/Codec.lean ====
section
/-! SUPPORT. What the readers of operand bytes and the layouts of words and bits give back of what was written. -/

namespace Sys2Proof

/-- A concatenation as a number: the more significant part shifted over the other (R11). -/
theorem toNat_append_add {m n : Nat} (x : BitVec m) (y : BitVec n) :
    (x ++ y).toNat = x.toNat * 2 ^ n + y.toNat := by
  rw [BitVec.toNat_append, ← Nat.shiftLeft_add_eq_or_of_lt y.isLt, Nat.shiftLeft_eq]

/-- A field as a number: `v[lo+n-1:lo]` (R11). -/
theorem toNat_field {w : Nat} (x : BitVec w) (lo n : Nat) :
    (x.extractLsb' lo n).toNat = x.toNat / 2 ^ lo % 2 ^ n := by
  rw [BitVec.extractLsb'_toNat, Nat.shiftRight_eq_div_pow]

@[simp] theorem andThen_ok {α β : Type} (a : α) (rest : List Byte) (f : α → List Byte → Parsed β) :
    andThen (.ok (a, rest)) f = f a rest := rfl

@[simp] theorem andThen_error {α β : Type} (e : DecodeError) (f : α → List Byte → Parsed β) :
    andThen (.error e) f = .error e := rfl

@[simp] theorem opOfCode_code (op : Op) : opOfCode op.code = some op := by cases op <;> rfl

theorem code_lt (op : Op) : op.code.toNat < 10 := by cases op <;> decide

@[simp] theorem kindOfCode_kindCode (k : SensorKind) : kindOfCode (kindCode k) = k := by cases k <;> rfl

theorem getNat_putNatFuel (fuel n : Nat) (rest : List Byte) (h : n < 128 ^ (fuel + 1)) :
    getNat (putNatFuel fuel n ++ rest) = .ok (n, rest) := by
  induction fuel generalizing n with
  | zero =>
    have hn : n < 128 := by simpa using h
    simp [putNatFuel, getNat, Nat.mod_eq_of_lt hn, Nat.mod_eq_of_lt (show n < 256 by omega), hn]
  | succ fuel ih =>
    unfold putNatFuel
    split
    · rename_i hn
      simp [getNat, Nat.mod_eq_of_lt (show n < 256 by omega), hn]
    · have hb : (128 + n % 128) % 256 = 128 + n % 128 := by omega
      have hd : n / 128 < 128 ^ (fuel + 1) := by
        rw [Nat.div_lt_iff_lt_mul (by decide)]; rw [pow_succ] at h; exact h
      simp only [List.cons_append, getNat, BitVec.toNat_ofNat, Nat.reducePow, hb, ih _ hd, andThen_ok]
      rw [if_neg (by omega)]
      congr 2; omega

@[simp] theorem getNat_putNat (n : Nat) (rest : List Byte) : getNat (putNat n ++ rest) = .ok (n, rest) := by
  refine getNat_putNatFuel _ _ _ (Nat.lt_of_lt_of_le Nat.lt_log2_self ?_)
  exact Nat.pow_le_pow_left (by decide) _

@[simp] theorem intOfNat_natOfInt (z : Int) : intOfNat (natOfInt z) = z := by
  cases z with
  | ofNat n => simp [natOfInt, intOfNat]
  | negSucc n =>
    have h1 : (2 * n + 1) % 2 = 1 := by omega
    have h2 : (2 * n + 1) / 2 = n := by omega
    simp only [natOfInt, intOfNat, h1, h2, Int.negSucc_eq]
    norm_num

@[simp] theorem getInt_putInt (z : Int) (rest : List Byte) : getInt (putInt z ++ rest) = .ok (z, rest) := by
  simp [getInt, putInt]

@[simp] theorem getRat_putRat (q : Rat) (rest : List Byte) : getRat (putRat q ++ rest) = .ok (q, rest) := by
  have hd : q.den - 1 + 1 = q.den := Nat.sub_add_cancel q.den_pos
  simp [putRat, getRat, List.append_assoc, hd, Rat.mkRat_self]

/-- A term is read back with as much fuel as it has bytes. -/
theorem getTerm_putTerm (t : RealTerm) (fuel : Nat) (rest : List Byte) (h : (putTerm t).length ≤ fuel) :
    getTerm fuel (putTerm t ++ rest) = .ok (t, rest) := by
  induction t generalizing fuel rest with
  | rat q => cases fuel with
    | zero => simp [putTerm] at h
    | succ fuel => simp [putTerm, getTerm, getByte]
  | pi => cases fuel with
    | zero => simp [putTerm] at h
    | succ fuel => simp [putTerm, getTerm, getByte]
  | named k => cases fuel with
    | zero => simp [putTerm] at h
    | succ fuel => simp [putTerm, getTerm, getByte]
  | add x y ihx ihy | sub x y ihx ihy | mul x y ihx ihy => cases fuel with
    | zero => simp [putTerm] at h
    | succ fuel =>
      simp only [putTerm, List.length_cons, List.length_append] at h
      simp [putTerm, getTerm, getByte, List.append_assoc, ihx fuel _ (by omega), ihy fuel _ (by omega)]
  | cos x ih | sin x ih => cases fuel with
    | zero => simp [putTerm] at h
    | succ fuel =>
      simp only [putTerm, List.length_cons] at h
      simp [putTerm, getTerm, getByte, ih fuel _ (by omega)]

@[simp] theorem getNumber_putNumber (x : Number) (rest : List Byte) :
    getNumber (putNumber x ++ rest) = .ok (x, rest) := by
  cases x with
  | fin q => simp [putNumber, getNumber, getByte]
  | real t =>
    have h := getTerm_putTerm t (putTerm t ++ rest).length rest (by simp)
    rw [List.length_append] at h
    simp [putNumber, getNumber, getByte, h]
  | inf negative => cases negative <;> rfl
  | nan => rfl
  | negZero => rfl

@[simp] theorem getSample_putSample (x : Sample) (rest : List Byte) :
    getSample (putSample x ++ rest) = .ok (x, rest) := by
  simp [getSample, putSample, List.append_assoc]

/-- A reader that gives back what a writer wrote does so for sequences. -/
theorem getSeq_putSeq {α : Type} (get : List Byte → Parsed α) (put : α → List Byte)
    (h : ∀ a rest, get (put a ++ rest) = .ok (a, rest)) (xs : List α) (rest : List Byte) :
    getSeq get (putSeq put xs ++ rest) = .ok (xs, rest) := by
  have hm : getMany get xs.length (xs.flatMap put ++ rest) = .ok (xs, rest) := by
    induction xs with
    | nil => rfl
    | cons x xs ih => simp [getMany, List.append_assoc, h, ih]
  simp [getSeq, putSeq, List.append_assoc, hm]

theorem getByte_cons (b : Byte) (rest : List Byte) : getByte ([b] ++ rest) = .ok (b, rest) := rfl

@[simp] theorem recordOfBits_recordBits (r : SourceRecord) : recordOfBits (recordBits r) r.port = r := by
  have hd := r.dest.isLt
  have hs := r.src.isLt
  have hk : (recordBits r).extractLsb' 20 2 = kindCode r.kind := by
    apply BitVec.eq_of_toNat_eq
    have := (kindCode r.kind).isLt
    simp only [recordBits, toNat_field, toNat_append_add]; omega
  have hdest : (recordBits r).extractLsb' 10 10 = r.dest := by
    apply BitVec.eq_of_toNat_eq; simp only [recordBits, toNat_field, toNat_append_add]; omega
  have hsrc : (recordBits r).extractLsb' 0 10 = r.src := by
    apply BitVec.eq_of_toNat_eq; simp only [recordBits, toNat_field, toNat_append_add]; omega
  simp [recordOfBits, hk, hdest, hsrc]

@[simp] theorem getRecord_putRecord (r : SourceRecord) (rest : List Byte) :
    getRecord (putRecord r ++ rest) = .ok (r, rest) := by
  have h : (recordBits r).toNat < 2 ^ 22 := (recordBits r).isLt
  have hb : BitVec.ofNat 22 (recordBits r).toNat = recordBits r := by simp
  simp only [getRecord, putRecord, List.append_assoc, getNat_putNat, andThen_ok, if_pos h, hb,
    recordOfBits_recordBits]

end Sys2Proof

namespace Sys2Proof.Machine

/-- The bits of a byte packed again are the byte, whatever follows. -/
@[simp] theorem packBits_byteBits (b : Byte) (rest : List Bool) :
    packBits (byteBits b ++ rest) = b :: packBits rest := by
  simp only [byteBits, List.cons_append, List.nil_append, packBits, List.cons.injEq, and_true]
  revert b; decide

/-- The bit of a packed byte (R172). -/
theorem byteOfBits_getLsbD (b7 b6 b5 b4 b3 b2 b1 b0 : Bool) (k : Nat) (hk : k < 8) :
    [b7, b6, b5, b4, b3, b2, b1, b0][k]? = some ((byteOfBits b7 b6 b5 b4 b3 b2 b1 b0).getLsbD (7 - k)) := by
  interval_cases k <;> clear hk <;> revert b7 b6 b5 b4 b3 b2 b1 b0 <;> decide

@[simp] theorem byteBits_length (b : Byte) : (byteBits b).length = 8 := rfl

theorem modulate_cons (b : Byte) (bytes : List Byte) :
    modulate (b :: bytes) = (byteBits b).map bitSample ++ modulate bytes := rfl

@[simp] theorem modulate_length (bytes : List Byte) : (modulate bytes).length = 8 * bytes.length := by
  induction bytes with
  | nil => rfl
  | cons b bytes ih => simp only [modulate_cons, List.length_append, List.length_map, byteBits_length, ih,
      List.length_cons]; omega

/-- Sample `8j + k` carries bit `7 - k` of byte `j` (R45). -/
theorem modulate_getElem (bytes : List Byte) (j k : Nat) (hj : j < bytes.length) (hk : k < 8) :
    (modulate bytes)[8 * j + k]? = some (bitSample (bytes[j].getLsbD (7 - k))) := by
  induction bytes generalizing j with
  | nil => simp at hj
  | cons b bytes ih =>
    rw [modulate_cons]
    cases j with
    | zero =>
      rw [List.getElem?_append_left (by simpa using hk)]
      interval_cases k <;> simp [byteBits]
    | succ j =>
      rw [List.getElem?_append_right (by simp; omega)]
      have : 8 * (j + 1) + k - ((byteBits b).map bitSample).length = 8 * j + k := by simp; omega
      rw [this, ih j (by simpa using hj)]; simp

/-- Packing makes a byte of every eight bits and drops the rest. -/
theorem packBits_length (bits : List Bool) : (packBits bits).length = bits.length / 8 := by
  induction bits using packBits.induct with
  | case1 b7 b6 b5 b4 b3 b2 b1 b0 rest ih => simp only [packBits, List.length_cons, ih]; omega
  | case2 bits h =>
    match bits, h with
    | [], _ | [_], _ | [_, _], _ | [_, _, _], _ | [_, _, _, _], _ | [_, _, _, _, _], _ | [_, _, _, _, _, _], _
    | [_, _, _, _, _, _, _], _ => simp [packBits]
    | b7 :: b6 :: b5 :: b4 :: b3 :: b2 :: b1 :: b0 :: rest, h => exact absurd rfl (h b7 b6 b5 b4 b3 b2 b1 b0 rest)

/-- The demodulator decides the complement of the bit the modulator sent (R173). -/
@[simp] theorem sampleBit_bitSample (b : Bool) : sampleBit (bitSample b) = !b := by cases b <;> rfl

/-- The complement of a byte, bit by bit. -/
theorem byteBits_not (b : Byte) : (byteBits b).map (fun x => !x) = byteBits (~~~b) := by revert b; decide

end Sys2Proof.Machine
end

