-- ==== Sys2Proof/Laws/Reals.lean ====
section
/-! SUPPORT. A term is one real; what its form and its bounds say of that real is so; arithmetic on rationals stays on
rationals. -/

namespace Sys2Proof.Machine

/-- Every term is one real only. -/
theorem denotes_unique {t : RealTerm} {r s : ℝ} (hr : denotes t r) (hs : denotes t s) : r = s := by
  induction t generalizing r s with
  | rat | pi | named => exact hr.trans hs.symm
  | add _ _ ihx ihy | sub _ _ ihx ihy | mul _ _ ihx ihy =>
    obtain ⟨a, b, ha, hb, rfl⟩ := hr; obtain ⟨a', b', ha', hb', rfl⟩ := hs; rw [ihx ha ha', ihy hb hb']
  | cos _ ih | sin _ ih => obtain ⟨a, ha, rfl⟩ := hr; obtain ⟨a', ha', rfl⟩ := hs; rw [ih ha ha']

/-! The form of a term. -/

/-- The real of a rational plus a rational multiple of pi. -/
def PiLinear.Is (x : PiLinear) (r : ℝ) : Prop := r = x.unit + x.pi * Real.pi

theorem both_some {α β : Type} {f : α → α → Option β} {x y : Option α} {c : β} (h : both f x y = some c) :
    ∃ a b, x = some a ∧ y = some b ∧ f a b = some c := by
  rcases x with _ | a <;> rcases y with _ | b <;> simp [both] at h
  exact ⟨a, b, rfl, rfl, h⟩

theorem mulLinear_is {x y z : PiLinear} {a b : ℝ} (h : mulLinear x y = some z) (ha : x.Is a) (hb : y.Is b) : z.Is (a * b) := by
  unfold mulLinear at h
  unfold PiLinear.Is at *
  split at h
  · rename_i hy; cases h; simp only [ha, hb, hy]; push_cast; ring
  · split at h
    · rename_i hx; cases h; simp only [ha, hb, hx]; push_cast; ring
    · cases h

/-- A whole number of quarter turns is that number modulo four and whole turns. -/
theorem quarterTurns_is {x : PiLinear} {n : Nat} {a : ℝ} (h : quarterTurns x = some n) (ha : x.Is a) :
    n < 4 ∧ ∃ k : ℤ, a = n * (Real.pi / 2) + k * (2 * Real.pi) := by
  unfold quarterTurns at h
  split at h
  · rename_i hx
    have h2 : ((2 * x.pi).num : Rat) = 2 * x.pi := by rw [← Rat.den_eq_one_iff]; exact hx.2
    have hm : 0 ≤ (2 * x.pi).num % 4 := Int.emod_nonneg _ (by norm_num)
    have hl : (2 * x.pi).num % 4 < 4 := Int.emod_lt_of_pos _ (by norm_num)
    have hn : ((2 * x.pi).num % 4).toNat = n := Option.some.inj h
    have hz : ((2 * x.pi).num : ℤ) = n + 4 * ((2 * x.pi).num / 4) := by omega
    refine ⟨by omega, (2 * x.pi).num / 4, ?_⟩
    have hq : (2 * x.pi : ℝ) = n + 4 * ((2 * x.pi).num / 4 : ℤ) := by
      have : ((2 * x.pi : Rat) : ℝ) = ((2 * x.pi).num : ℤ) := by rw [← h2]; norm_cast
      rw [hz] at this; push_cast at this ⊢; linarith
    rw [ha, hx.1]
    push_cast
    linear_combination (Real.pi / 2) * hq
  · cases h

theorem quarterCos_is {n : Nat} (k : ℤ) (h : n < 4) :
    (quarterCos n).Is (Real.cos (n * (Real.pi / 2) + k * (2 * Real.pi))) := by
  rw [Real.cos_add_int_mul_two_pi]
  interval_cases n
  · simp [quarterCos, PiLinear.Is]
  · simp [quarterCos, PiLinear.Is]
  · simp [quarterCos, PiLinear.Is, show (2 : ℝ) * (Real.pi / 2) = Real.pi by ring]
  · simp [quarterCos, PiLinear.Is, show (3 : ℝ) * (Real.pi / 2) = Real.pi / 2 + Real.pi by ring]

theorem quarterSin_is {n : Nat} (k : ℤ) (h : n < 4) :
    (quarterSin n).Is (Real.sin (n * (Real.pi / 2) + k * (2 * Real.pi))) := by
  rw [Real.sin_add_int_mul_two_pi]
  interval_cases n
  · simp [quarterSin, PiLinear.Is]
  · simp [quarterSin, PiLinear.Is]
  · simp [quarterSin, PiLinear.Is, show (2 : ℝ) * (Real.pi / 2) = Real.pi by ring]
  · simp [quarterSin, PiLinear.Is, show (3 : ℝ) * (Real.pi / 2) = Real.pi / 2 + Real.pi by ring]

theorem linear_is {t : RealTerm} {x : PiLinear} {r : ℝ} (h : linear t = some x) (hr : denotes t r) : x.Is r := by
  induction t generalizing x r with
  | rat q => cases h; simpa [PiLinear.Is, denotes] using hr
  | pi => cases h; simpa [PiLinear.Is, denotes] using hr
  | named k => cases h
  | add t u iht ihu | sub t u iht ihu =>
    obtain ⟨a, b, ha, hb, rfl⟩ := hr
    obtain ⟨y, z, hy, hz, hx⟩ := both_some h
    have h1 := iht hy ha; have h2 := ihu hz hb
    cases hx; simp only [PiLinear.Is] at *; rw [h1, h2]; push_cast; ring
  | mul t u iht ihu =>
    obtain ⟨a, b, ha, hb, rfl⟩ := hr
    obtain ⟨y, z, hy, hz, hx⟩ := both_some h
    exact mulLinear_is hx (iht hy ha) (ihu hz hb)
  | cos t ih | sin t ih =>
    obtain ⟨a, ha, rfl⟩ := hr
    simp only [linear, Option.map_eq_some_iff, Option.bind_eq_some_iff] at h
    obtain ⟨n, ⟨y, hy, hn⟩, rfl⟩ := h
    obtain ⟨hl, k, rfl⟩ := quarterTurns_is hn (ih hy ha)
    first | exact quarterCos_is k hl | exact quarterSin_is k hl

/-- A term that is a rational by its form is that rational. -/
theorem rational_is {t : RealTerm} {q : Rat} {r : ℝ} (h : rational t = some q) (hr : denotes t r) : r = q := by
  simp only [rational, Option.bind_eq_some_iff] at h
  obtain ⟨x, hx, h⟩ := h
  split at h
  · rename_i hp
    cases h
    simpa [PiLinear.Is, hp] using linear_is hx hr
  · cases h

/-! The bounds of a term. -/

def Bounds.Hold (x : Bounds) (r : ℝ) : Prop := (x.lo : ℝ) ≤ r ∧ r ≤ x.hi

theorem piBounds_hold : piBounds.Hold Real.pi := by
  have h1 := Real.pi_gt_d20
  have h2 := Real.pi_lt_d20
  norm_num [Bounds.Hold, piBounds] at *
  constructor <;> linarith

theorem mulBounds_hold {x y : Bounds} {a b : ℝ} (ha : x.Hold a) (hb : y.Hold b) : (mulBounds x y).Hold (a * b) := by
  obtain ⟨h1, h2⟩ := ha
  obtain ⟨h3, h4⟩ := hb
  simp only [Bounds.Hold, mulBounds]
  push_cast
  constructor
  · rcases le_total 0 b with hb | hb
    · rcases le_total 0 (x.lo : ℝ) with hx | hx
      · exact (min_le_left _ _).trans ((min_le_left _ _).trans (by nlinarith))
      · exact (min_le_left _ _).trans ((min_le_right _ _).trans (by nlinarith))
    · rcases le_total 0 (x.hi : ℝ) with hx | hx
      · exact (min_le_right _ _).trans ((min_le_left _ _).trans (by nlinarith))
      · exact (min_le_right _ _).trans ((min_le_right _ _).trans (by nlinarith))
  · rcases le_total 0 b with hb | hb
    · rcases le_total 0 (x.hi : ℝ) with hx | hx
      · exact le_max_of_le_right (le_max_of_le_right (by nlinarith))
      · exact le_max_of_le_right (le_max_of_le_left (by nlinarith))
    · rcases le_total 0 (x.lo : ℝ) with hx | hx
      · exact le_max_of_le_left (le_max_of_le_right (by nlinarith))
      · exact le_max_of_le_left (le_max_of_le_left (by nlinarith))

/-- The first `2n` terms of the exponential series at `i c`, in its two parts. -/
theorem expSum_eq (c : ℝ) (n : Nat) :
    (∑ m ∈ Finset.range (2 * n), ((c : ℂ) * Complex.I) ^ m / m.factorial)
      = ((∑ k ∈ Finset.range n, (-1) ^ k * c ^ (2 * k) / (2 * k).factorial : ℝ) : ℂ)
        + ((∑ k ∈ Finset.range n, (-1) ^ k * c ^ (2 * k + 1) / (2 * k + 1).factorial : ℝ) : ℂ) * Complex.I := by
  induction n with
  | zero => simp
  | succ n ih =>
    have hI : (Complex.I : ℂ) ^ (2 * n) = (-1) ^ n := by rw [pow_mul, Complex.I_sq]
    rw [show 2 * (n + 1) = 2 * n + 1 + 1 by ring, Finset.sum_range_succ, Finset.sum_range_succ, ih,
      Finset.sum_range_succ _ n, Finset.sum_range_succ _ n]
    push_cast
    rw [mul_pow, mul_pow, pow_succ Complex.I, hI]
    ring

theorem sum_map_range (f : Nat → Rat) (n : Nat) : ((List.range n).map f).sum = ∑ k ∈ Finset.range n, f k := by
  induction n with
  | zero => rfl
  | succ n ih => simp [List.range_succ, Finset.sum_range_succ, ih]

theorem cosSum_cast (c : Rat) :
    ((cosSum c : Rat) : ℝ) = ∑ k ∈ Finset.range 32, (-1) ^ k * (c : ℝ) ^ (2 * k) / (2 * k).factorial := by
  rw [cosSum, sum_map_range]; push_cast; rfl

theorem sinSum_cast (c : Rat) :
    ((sinSum c : Rat) : ℝ) = ∑ k ∈ Finset.range 32, (-1) ^ k * (c : ℝ) ^ (2 * k + 1) / (2 * k + 1).factorial := by
  rw [sinSum, sum_map_range]; push_cast; rfl

/-- The rest of both series. -/
theorem series_rest {c : Rat} (h : |c| ≤ 32) :
    |Real.cos c - (cosSum c : Rat)| ≤ |(c : ℝ)| ^ 64 / (64).factorial * 2
      ∧ |Real.sin c - (sinSum c : Rat)| ≤ |(c : ℝ)| ^ 64 / (64).factorial * 2 := by
  have hn : ‖((c : ℝ) : ℂ) * Complex.I‖ = |(c : ℝ)| := by simp
  have hc : |(c : ℝ)| ≤ 32 := by exact_mod_cast h
  have hb := Complex.exp_bound' (x := ((c : ℝ) : ℂ) * Complex.I) (n := 64) (by rw [hn]; norm_num; linarith)
  rw [hn, show (64 : Nat) = 2 * 32 by rfl, expSum_eq, Complex.exp_mul_I, ← cosSum_cast, ← sinSum_cast] at hb
  generalize ((cosSum c : Rat) : ℝ) = p at *
  generalize ((sinSum c : Rat) : ℝ) = q at *
  generalize (c : ℝ) = x at *
  have hz : Complex.cos x + Complex.sin x * Complex.I - ((p : ℂ) + q * Complex.I)
      = ⟨Real.cos x - p, Real.sin x - q⟩ := by
    apply Complex.ext <;> simp [Complex.cos_ofReal_re, Complex.sin_ofReal_re, Complex.cos_ofReal_im,
      Complex.sin_ofReal_im]
  rw [hz] at hb
  exact ⟨(Complex.abs_re_le_norm _).trans hb, (Complex.abs_im_le_norm _).trans hb⟩

theorem cos_sub_le (a b : ℝ) : |Real.cos a - Real.cos b| ≤ |a - b| := by
  rw [Real.cos_sub_cos, abs_mul, abs_mul, abs_neg, abs_two]
  have h1 := Real.abs_sin_le_one ((a + b) / 2)
  have h2 : |Real.sin ((a - b) / 2)| ≤ |(a - b) / 2| := Real.abs_sin_le_abs
  rw [abs_div, abs_two] at h2
  nlinarith [abs_nonneg (Real.sin ((a + b) / 2)), abs_nonneg (Real.sin ((a - b) / 2))]

theorem sin_sub_le (a b : ℝ) : |Real.sin a - Real.sin b| ≤ |a - b| := by
  have := cos_sub_le (a - Real.pi / 2) (b - Real.pi / 2)
  simpa [Real.cos_sub_pi_div_two] using this

/-- A wave of slope at most one, between -1 and 1, whose series is known at the middle of an interval. -/
theorem waveBounds_hold {f : ℝ → ℝ} {series : Rat → Rat} {x : Bounds} {a : ℝ} (hx : x.Hold a)
    (hslope : ∀ a b, |f a - f b| ≤ |a - b|) (hone : ∀ a, -1 ≤ f a ∧ f a ≤ 1)
    (hrest : ∀ c : Rat, |c| ≤ 32 → |f c - (series c : Rat)| ≤ |(c : ℝ)| ^ 64 / (64).factorial * 2) :
    (waveBounds series x).Hold (f a) := by
  unfold waveBounds
  simp only
  split
  · rename_i hc
    have h1 := hrest _ hc
    have h2 := hslope a (((x.lo + x.hi) / 2 : Rat) : ℝ)
    have h3 : |a - (((x.lo + x.hi) / 2 : Rat) : ℝ)| ≤ (x.hi - x.lo) / 2 := by
      obtain ⟨hl, hh⟩ := hx
      rw [abs_le]; push_cast; constructor <;> linarith
    obtain ⟨h1a, h1b⟩ := abs_le.mp h1
    obtain ⟨h2a, h2b⟩ := abs_le.mp (h2.trans h3)
    simp only [Bounds.Hold]
    rw [Rat.cast_max, Rat.cast_min]
    constructor
    · refine max_le (by simpa using (hone a).1) ?_
      push_cast at *; linarith
    · refine le_min (by simpa using (hone a).2) ?_
      push_cast at *; linarith
  · simpa [Bounds.Hold] using hone a

theorem bounds_hold {t : RealTerm} {x : Bounds} {r : ℝ} (h : bounds t = some x) (hr : denotes t r) : x.Hold r := by
  induction t generalizing x r with
  | rat q => cases h; simp [Bounds.Hold, show r = (q : ℝ) from hr]
  | pi => cases h; rw [show r = Real.pi from hr]; exact piBounds_hold
  | named k => cases h
  | add t u iht ihu | sub t u iht ihu =>
    obtain ⟨a, b, ha, hb, rfl⟩ := hr
    obtain ⟨y, z, hy, hz, hx⟩ := both_some h
    have h1 := iht hy ha; have h2 := ihu hz hb
    cases hx; simp only [Bounds.Hold] at *; push_cast; constructor <;> linarith
  | mul t u iht ihu =>
    obtain ⟨a, b, ha, hb, rfl⟩ := hr
    obtain ⟨y, z, hy, hz, hx⟩ := both_some h
    cases hx; exact mulBounds_hold (iht hy ha) (ihu hz hb)
  | cos t ih =>
    obtain ⟨a, ha, rfl⟩ := hr
    simp only [bounds, Option.map_eq_some_iff] at h
    obtain ⟨y, hy, rfl⟩ := h
    exact waveBounds_hold (ih hy ha) cos_sub_le (fun a => ⟨Real.neg_one_le_cos a, Real.cos_le_one a⟩)
      fun c hc => (series_rest hc).1
  | sin t ih =>
    obtain ⟨a, ha, rfl⟩ := hr
    simp only [bounds, Option.map_eq_some_iff] at h
    obtain ⟨y, hy, rfl⟩ := h
    exact waveBounds_hold (ih hy ha) sin_sub_le (fun a => ⟨Real.neg_one_le_sin a, Real.sin_le_one a⟩)
      fun c hc => (series_rest hc).2

theorem rationalSign_compares (q : Rat) : (rationalSign q).Compares (q : ℝ) 0 := by
  unfold rationalSign
  split
  · simpa [Ordering.Compares]
  · split
    · simpa [Ordering.Compares]
    · rename_i h1 h2
      simp only [Ordering.Compares]
      exact_mod_cast lt_of_le_of_ne (not_lt.mp h1) (Ne.symm h2)

/-- What is known of how a term compares with 0 is how its real does. -/
theorem knownSign_compares {t : RealTerm} {o : Ordering} {r : ℝ} (h : knownSign t = some o) (hr : denotes t r) :
    o.Compares r 0 := by
  unfold knownSign at h
  split at h
  · rename_i q hq
    cases h; rw [rational_is hq hr]; exact rationalSign_compares q
  · obtain ⟨x, hx, h⟩ := Option.bind_eq_some_iff.mp h
    obtain ⟨hl, hh⟩ := bounds_hold hx hr
    unfold boundsSign at h
    split at h
    · rename_i h0
      cases h
      exact lt_of_lt_of_le (by exact_mod_cast h0) hl
    · split at h
      · rename_i h0
        cases h
        exact lt_of_le_of_lt hh (by exact_mod_cast h0)
      · split at h
        · rename_i h0
          cases h
          exact le_antisymm (by simpa [h0.2] using hh) (by simpa [h0.1] using hl)
        · cases h

/-- How a term compares with 0 is how its real does, in every case. -/
theorem realSign_compares {t : RealTerm} {r : ℝ} (hr : denotes t r) : (realSign t).Compares r 0 := by
  unfold realSign
  cases h : knownSign t with
  | some o => exact knownSign_compares h hr
  | none =>
    obtain ⟨u, hu, hs⟩ := (@signOf t (sign_exists t)).property
    rwa [denotes_unique hr hu]

theorem realSign_eq_gt {t : RealTerm} {r : ℝ} (hr : denotes t r) : realSign t = .gt ↔ 0 < r :=
  (realSign_compares hr).eq_gt

theorem realSign_eq_eq {t : RealTerm} {r : ℝ} (hr : denotes t r) : realSign t = .eq ↔ r = 0 :=
  (realSign_compares hr).eq_eq

theorem realSign_eq_lt {t : RealTerm} {r : ℝ} (hr : denotes t r) : realSign t = .lt ↔ r < 0 :=
  (realSign_compares hr).eq_lt

/-! Numbers. -/

/-- A real as a number stays that real. -/
theorem ofReal_denotes {t : RealTerm} {r : ℝ} (hr : denotes t r) : ∃ u, numberTerm (ofReal t) = some u ∧ denotes u r := by
  unfold ofReal
  split
  · rename_i q hq; exact ⟨.rat q, rfl, rational_is hq hr⟩
  · exact ⟨t, rfl, hr⟩

@[simp] theorem ofReal_rat (q : Rat) : ofReal (.rat q) = .fin q := rfl
@[simp] theorem numberAdd_fin (p q : Rat) : numberAdd .exact (.fin p) (.fin q) = .fin (p + q) := by
  simp [numberAdd, arithmetic, exactly, numberTerm, ofReal, rational, linear, both]
@[simp] theorem numberSub_fin (p q : Rat) : numberSub .exact (.fin p) (.fin q) = .fin (p - q) := by
  simp [numberSub, arithmetic, exactly, numberTerm, ofReal, rational, linear, both]
@[simp] theorem numberMul_fin (p q : Rat) : numberMul .exact (.fin p) (.fin q) = .fin (p * q) := by
  simp [numberMul, arithmetic, exactly, numberTerm, ofReal, rational, linear, both, mulLinear]
@[simp] theorem numberDivNat_fin (p : Rat) (n : Nat) : numberDivNat .exact (.fin p) n = .fin (p / n) := by
  simp [numberDivNat, arithmetic, exactly, numberTerm, ofReal, rational, linear, both, mulLinear, div_eq_mul_inv]
@[simp] theorem numberCos_zero : numberCos .exact (.fin 0) = .fin 1 := by
  simp [numberCos, wave, numberTerm, ofReal, rational, linear, quarterTurns, quarterCos]
@[simp] theorem numberSin_zero : numberSin .exact (.fin 0) = .fin 0 := by
  simp [numberSin, wave, numberTerm, ofReal, rational, linear, quarterTurns, quarterSin]

@[simp] theorem numberPositive_fin (q : Rat) : numberPositive (.fin q) = decide (0 < q) := by
  unfold numberPositive numberSign rationalSign
  rcases lt_trichotomy q 0 with h | h | h
  · simp [h, not_lt_of_gt h]
  · simp [h]
  · simp [h, not_lt_of_gt h, ne_of_gt h]
@[simp] theorem numberIsZero_fin (q : Rat) : numberIsZero (.fin q) = decide (q = 0) := by
  unfold numberIsZero numberSign rationalSign
  rcases lt_trichotomy q 0 with h | h | h
  · simp [h, ne_of_lt h]
  · simp [h]
  · simp [not_lt_of_gt h, ne_of_gt h]
@[simp] theorem numberPositive_real (t : RealTerm) : numberPositive (.real t) = (realSign t == .gt) := by
  simp [numberPositive, numberSign]
@[simp] theorem numberIsZero_real (t : RealTerm) : numberIsZero (.real t) = (realSign t == .eq) := by
  simp [numberIsZero, numberSign]

/-- The finite noise strengths are those not less than 0 (R164). -/
@[simp] theorem noiseInDomain_fin (q : Rat) : noiseInDomain (.fin q) = decide (0 ≤ q) := by
  simp [noiseInDomain, numberTerm, numberNonNegative, le_iff_lt_or_eq, eq_comm (a := q)]
@[simp] theorem noiseInDomain_real (t : RealTerm) : noiseInDomain (.real t) = (realSign t != .lt) := by
  simp only [noiseInDomain, numberTerm, Option.isSome_some, numberNonNegative, numberPositive_real, numberIsZero_real]
  cases realSign t <;> rfl

end Sys2Proof.Machine
end

