-- ==== Sys2Proof/Laws/State.lean ====
section
/-! SUPPORT. One lemma per field per shared update of the state: what the update leaves in the field. -/

namespace Sys2Proof.Machine

variable (s : State)

@[simp] theorem emit_sources (o : Output) : (emit o s).sources = s.sources := rfl
@[simp] theorem emit_slotDuration (o : Output) : (emit o s).slotDuration = s.slotDuration := rfl
@[simp] theorem emit_running (o : Output) : (emit o s).running = s.running := rfl
@[simp] theorem emit_stopReq (o : Output) : (emit o s).stopReq = s.stopReq := rfl
@[simp] theorem emit_slotIdx (o : Output) : (emit o s).slotIdx = s.slotIdx := rfl
@[simp] theorem emit_slotPhase (o : Output) : (emit o s).slotPhase = s.slotPhase := rfl
@[simp] theorem emit_txFrame (o : Output) : (emit o s).txFrame = s.txFrame := rfl
@[simp] theorem emit_rng (o : Output) : (emit o s).rng = s.rng := rfl
@[simp] theorem emit_txWritten (o : Output) : (emit o s).txWritten = s.txWritten := rfl
@[simp] theorem emit_calling (o : Output) : (emit o s).calling = s.calling := rfl
@[simp] theorem emit_reading (o : Output) : (emit o s).reading = s.reading := rfl
@[simp] theorem emit_transport (o : Output) : (emit o s).transport = s.transport := rfl
@[simp] theorem emit_clock (o : Output) : (emit o s).clock = s.clock := rfl
@[simp] theorem emit_faultRecord (o : Output) : (emit o s).faultRecord = s.faultRecord := rfl
@[simp] theorem emit_params (o : Output) : (emit o s).params = s.params := rfl
@[simp] theorem emit_turns (o : Output) : (emit o s).turns = s.turns := rfl
@[simp] theorem emit_sensorIn (o : Output) : (emit o s).sensorIn = s.sensorIn := rfl
@[simp] theorem emit_transportIn (o : Output) : (emit o s).transportIn = s.transportIn := rfl
@[simp] theorem emit_clockIn (o : Output) : (emit o s).clockIn = s.clockIn := rfl
@[simp] theorem emit_drawIn (o : Output) : (emit o s).drawIn = s.drawIn := rfl
@[simp] theorem emit_out (o : Output) : (emit o s).out = s.out ++ [o] := rfl

@[simp] theorem respond_sources (op : Op) (st : Status) (r : Result) : (respond op st r s).sources = s.sources := rfl
@[simp] theorem respond_slotDuration (op : Op) (st : Status) (r : Result) : (respond op st r s).slotDuration = s.slotDuration := rfl
@[simp] theorem respond_running (op : Op) (st : Status) (r : Result) : (respond op st r s).running = s.running := rfl
@[simp] theorem respond_stopReq (op : Op) (st : Status) (r : Result) : (respond op st r s).stopReq = s.stopReq := rfl
@[simp] theorem respond_slotIdx (op : Op) (st : Status) (r : Result) : (respond op st r s).slotIdx = s.slotIdx := rfl
@[simp] theorem respond_slotPhase (op : Op) (st : Status) (r : Result) : (respond op st r s).slotPhase = s.slotPhase := rfl
@[simp] theorem respond_txFrame (op : Op) (st : Status) (r : Result) : (respond op st r s).txFrame = s.txFrame := rfl
@[simp] theorem respond_rng (op : Op) (st : Status) (r : Result) : (respond op st r s).rng = s.rng := rfl
@[simp] theorem respond_txWritten (op : Op) (st : Status) (r : Result) : (respond op st r s).txWritten = s.txWritten := rfl
@[simp] theorem respond_calling (op : Op) (st : Status) (r : Result) : (respond op st r s).calling = s.calling := rfl
@[simp] theorem respond_reading (op : Op) (st : Status) (r : Result) : (respond op st r s).reading = s.reading := rfl
@[simp] theorem respond_transport (op : Op) (st : Status) (r : Result) : (respond op st r s).transport = s.transport := rfl
@[simp] theorem respond_clock (op : Op) (st : Status) (r : Result) : (respond op st r s).clock = s.clock := rfl
@[simp] theorem respond_faultRecord (op : Op) (st : Status) (r : Result) : (respond op st r s).faultRecord = s.faultRecord := rfl
@[simp] theorem respond_params (op : Op) (st : Status) (r : Result) : (respond op st r s).params = s.params := rfl
@[simp] theorem respond_turns (op : Op) (st : Status) (r : Result) : (respond op st r s).turns = s.turns := rfl
@[simp] theorem respond_sensorIn (op : Op) (st : Status) (r : Result) : (respond op st r s).sensorIn = s.sensorIn := rfl
@[simp] theorem respond_transportIn (op : Op) (st : Status) (r : Result) : (respond op st r s).transportIn = s.transportIn := rfl
@[simp] theorem respond_clockIn (op : Op) (st : Status) (r : Result) : (respond op st r s).clockIn = s.clockIn := rfl
@[simp] theorem respond_drawIn (op : Op) (st : Status) (r : Result) : (respond op st r s).drawIn = s.drawIn := rfl
@[simp] theorem respond_out (op : Op) (st : Status) (r : Result) : (respond op st r s).out = s.out ++ [.response op st r] := rfl

@[simp] theorem raiseError_sources (op : Op) (e : Status) : (raiseError op e s).sources = s.sources := rfl
@[simp] theorem raiseError_slotDuration (op : Op) (e : Status) : (raiseError op e s).slotDuration = s.slotDuration := rfl
@[simp] theorem raiseError_running (op : Op) (e : Status) : (raiseError op e s).running = s.running := rfl
@[simp] theorem raiseError_stopReq (op : Op) (e : Status) : (raiseError op e s).stopReq = s.stopReq := rfl
@[simp] theorem raiseError_slotIdx (op : Op) (e : Status) : (raiseError op e s).slotIdx = s.slotIdx := rfl
@[simp] theorem raiseError_slotPhase (op : Op) (e : Status) : (raiseError op e s).slotPhase = s.slotPhase := rfl
@[simp] theorem raiseError_txFrame (op : Op) (e : Status) : (raiseError op e s).txFrame = s.txFrame := rfl
@[simp] theorem raiseError_rng (op : Op) (e : Status) : (raiseError op e s).rng = s.rng := rfl
@[simp] theorem raiseError_txWritten (op : Op) (e : Status) : (raiseError op e s).txWritten = s.txWritten := rfl
@[simp] theorem raiseError_calling (op : Op) (e : Status) : (raiseError op e s).calling = s.calling := rfl
@[simp] theorem raiseError_reading (op : Op) (e : Status) : (raiseError op e s).reading = s.reading := rfl
@[simp] theorem raiseError_transport (op : Op) (e : Status) : (raiseError op e s).transport = s.transport := rfl
@[simp] theorem raiseError_clock (op : Op) (e : Status) : (raiseError op e s).clock = s.clock := rfl
@[simp] theorem raiseError_faultRecord (op : Op) (e : Status) : (raiseError op e s).faultRecord = s.faultRecord := rfl
@[simp] theorem raiseError_params (op : Op) (e : Status) : (raiseError op e s).params = s.params := rfl
@[simp] theorem raiseError_turns (op : Op) (e : Status) : (raiseError op e s).turns = s.turns := rfl
@[simp] theorem raiseError_sensorIn (op : Op) (e : Status) : (raiseError op e s).sensorIn = s.sensorIn := rfl
@[simp] theorem raiseError_transportIn (op : Op) (e : Status) : (raiseError op e s).transportIn = s.transportIn := rfl
@[simp] theorem raiseError_clockIn (op : Op) (e : Status) : (raiseError op e s).clockIn = s.clockIn := rfl
@[simp] theorem raiseError_drawIn (op : Op) (e : Status) : (raiseError op e s).drawIn = s.drawIn := rfl
@[simp] theorem raiseError_out (op : Op) (e : Status) : (raiseError op e s).out = s.out ++ [.response op e .nothing] := rfl

@[simp] theorem answer_sources (op : Op) (r : Result) : (answer op r s).sources = s.sources := rfl
@[simp] theorem answer_slotDuration (op : Op) (r : Result) : (answer op r s).slotDuration = s.slotDuration := rfl
@[simp] theorem answer_running (op : Op) (r : Result) : (answer op r s).running = s.running := rfl
@[simp] theorem answer_stopReq (op : Op) (r : Result) : (answer op r s).stopReq = s.stopReq := rfl
@[simp] theorem answer_slotIdx (op : Op) (r : Result) : (answer op r s).slotIdx = s.slotIdx := rfl
@[simp] theorem answer_slotPhase (op : Op) (r : Result) : (answer op r s).slotPhase = s.slotPhase := rfl
@[simp] theorem answer_txFrame (op : Op) (r : Result) : (answer op r s).txFrame = s.txFrame := rfl
@[simp] theorem answer_rng (op : Op) (r : Result) : (answer op r s).rng = s.rng := rfl
@[simp] theorem answer_txWritten (op : Op) (r : Result) : (answer op r s).txWritten = s.txWritten := rfl
@[simp] theorem answer_calling (op : Op) (r : Result) : (answer op r s).calling = s.calling := rfl
@[simp] theorem answer_reading (op : Op) (r : Result) : (answer op r s).reading = s.reading := rfl
@[simp] theorem answer_transport (op : Op) (r : Result) : (answer op r s).transport = s.transport := rfl
@[simp] theorem answer_clock (op : Op) (r : Result) : (answer op r s).clock = s.clock := rfl
@[simp] theorem answer_faultRecord (op : Op) (r : Result) : (answer op r s).faultRecord = s.faultRecord := rfl
@[simp] theorem answer_params (op : Op) (r : Result) : (answer op r s).params = s.params := rfl
@[simp] theorem answer_turns (op : Op) (r : Result) : (answer op r s).turns = s.turns := rfl
@[simp] theorem answer_sensorIn (op : Op) (r : Result) : (answer op r s).sensorIn = s.sensorIn := rfl
@[simp] theorem answer_transportIn (op : Op) (r : Result) : (answer op r s).transportIn = s.transportIn := rfl
@[simp] theorem answer_clockIn (op : Op) (r : Result) : (answer op r s).clockIn = s.clockIn := rfl
@[simp] theorem answer_drawIn (op : Op) (r : Result) : (answer op r s).drawIn = s.drawIn := rfl
@[simp] theorem answer_out (op : Op) (r : Result) : (answer op r s).out = s.out ++ [.response op .ok r] := rfl

@[simp] theorem clearRun_sources : (clearRun s).sources = s.sources := rfl
@[simp] theorem clearRun_slotDuration : (clearRun s).slotDuration = s.slotDuration := rfl
@[simp] theorem clearRun_running : (clearRun s).running = false := rfl
@[simp] theorem clearRun_stopReq : (clearRun s).stopReq = false := rfl
@[simp] theorem clearRun_slotIdx : (clearRun s).slotIdx = s.slotIdx := rfl
@[simp] theorem clearRun_slotPhase : (clearRun s).slotPhase = s.slotPhase := rfl
@[simp] theorem clearRun_txFrame : (clearRun s).txFrame = s.txFrame := rfl
@[simp] theorem clearRun_rng : (clearRun s).rng = s.rng := rfl
@[simp] theorem clearRun_txWritten : (clearRun s).txWritten = s.txWritten := rfl
@[simp] theorem clearRun_calling : (clearRun s).calling = s.calling := rfl
@[simp] theorem clearRun_reading : (clearRun s).reading = s.reading := rfl
@[simp] theorem clearRun_transport : (clearRun s).transport = s.transport := rfl
@[simp] theorem clearRun_clock : (clearRun s).clock = s.clock := rfl
@[simp] theorem clearRun_faultRecord : (clearRun s).faultRecord = s.faultRecord := rfl
@[simp] theorem clearRun_params : (clearRun s).params = s.params := rfl
@[simp] theorem clearRun_turns : (clearRun s).turns = s.turns := rfl
@[simp] theorem clearRun_sensorIn : (clearRun s).sensorIn = s.sensorIn := rfl
@[simp] theorem clearRun_transportIn : (clearRun s).transportIn = s.transportIn := rfl
@[simp] theorem clearRun_clockIn : (clearRun s).clockIn = s.clockIn := rfl
@[simp] theorem clearRun_drawIn : (clearRun s).drawIn = s.drawIn := rfl
@[simp] theorem clearRun_out : (clearRun s).out = s.out := rfl

@[simp] theorem beginRun_sources : (beginRun s).sources = s.sources := rfl
@[simp] theorem beginRun_slotDuration : (beginRun s).slotDuration = s.slotDuration := rfl
@[simp] theorem beginRun_running : (beginRun s).running = true := rfl
@[simp] theorem beginRun_stopReq : (beginRun s).stopReq = false := rfl
@[simp] theorem beginRun_slotIdx : (beginRun s).slotIdx = s.slotIdx := rfl
@[simp] theorem beginRun_slotPhase : (beginRun s).slotPhase = s.slotPhase := rfl
@[simp] theorem beginRun_txFrame : (beginRun s).txFrame = s.txFrame := rfl
@[simp] theorem beginRun_rng : (beginRun s).rng = s.rng := rfl
@[simp] theorem beginRun_txWritten : (beginRun s).txWritten = s.txWritten := rfl
@[simp] theorem beginRun_calling : (beginRun s).calling = s.calling := rfl
@[simp] theorem beginRun_reading : (beginRun s).reading = s.reading := rfl
@[simp] theorem beginRun_transport : (beginRun s).transport = s.transport := rfl
@[simp] theorem beginRun_clock : (beginRun s).clock = s.clock := rfl
@[simp] theorem beginRun_faultRecord : (beginRun s).faultRecord = s.faultRecord := rfl
@[simp] theorem beginRun_params : (beginRun s).params = s.params := rfl
@[simp] theorem beginRun_turns : (beginRun s).turns = s.turns := rfl
@[simp] theorem beginRun_sensorIn : (beginRun s).sensorIn = s.sensorIn := rfl
@[simp] theorem beginRun_transportIn : (beginRun s).transportIn = s.transportIn := rfl
@[simp] theorem beginRun_clockIn : (beginRun s).clockIn = s.clockIn := rfl
@[simp] theorem beginRun_drawIn : (beginRun s).drawIn = s.drawIn := rfl
@[simp] theorem beginRun_out : (beginRun s).out = s.out := rfl

@[simp] theorem endRun_sources (st : Status) : (endRun st s).sources = s.sources := rfl
@[simp] theorem endRun_slotDuration (st : Status) : (endRun st s).slotDuration = s.slotDuration := rfl
@[simp] theorem endRun_running (st : Status) : (endRun st s).running = false := rfl
@[simp] theorem endRun_stopReq (st : Status) : (endRun st s).stopReq = false := rfl
@[simp] theorem endRun_slotIdx (st : Status) : (endRun st s).slotIdx = s.slotIdx := rfl
@[simp] theorem endRun_slotPhase (st : Status) : (endRun st s).slotPhase = .boundary := rfl
@[simp] theorem endRun_txFrame (st : Status) : (endRun st s).txFrame = s.txFrame := rfl
@[simp] theorem endRun_rng (st : Status) : (endRun st s).rng = s.rng := rfl
@[simp] theorem endRun_txWritten (st : Status) : (endRun st s).txWritten = s.txWritten := rfl
@[simp] theorem endRun_calling (st : Status) : (endRun st s).calling = false := rfl
@[simp] theorem endRun_reading (st : Status) : (endRun st s).reading = s.reading := rfl
@[simp] theorem endRun_transport (st : Status) : (endRun st s).transport = s.transport := rfl
@[simp] theorem endRun_clock (st : Status) : (endRun st s).clock = s.clock := rfl
@[simp] theorem endRun_faultRecord (st : Status) : (endRun st s).faultRecord = s.faultRecord := rfl
@[simp] theorem endRun_params (st : Status) : (endRun st s).params = s.params := rfl
@[simp] theorem endRun_turns (st : Status) : (endRun st s).turns = s.turns := rfl
@[simp] theorem endRun_sensorIn (st : Status) : (endRun st s).sensorIn = s.sensorIn := rfl
@[simp] theorem endRun_transportIn (st : Status) : (endRun st s).transportIn = s.transportIn := rfl
@[simp] theorem endRun_clockIn (st : Status) : (endRun st s).clockIn = s.clockIn := rfl
@[simp] theorem endRun_drawIn (st : Status) : (endRun st s).drawIn = s.drawIn := rfl
@[simp] theorem endRun_out (st : Status) : (endRun st s).out = s.out ++ [.response .tdmaStart st .nothing] := rfl

@[simp] theorem recordFault_sources (f : RunFault) : (recordFault f s).sources = s.sources := rfl
@[simp] theorem recordFault_slotDuration (f : RunFault) : (recordFault f s).slotDuration = s.slotDuration := rfl
@[simp] theorem recordFault_running (f : RunFault) : (recordFault f s).running = s.running := rfl
@[simp] theorem recordFault_stopReq (f : RunFault) : (recordFault f s).stopReq = s.stopReq := rfl
@[simp] theorem recordFault_slotIdx (f : RunFault) : (recordFault f s).slotIdx = s.slotIdx := rfl
@[simp] theorem recordFault_slotPhase (f : RunFault) : (recordFault f s).slotPhase = s.slotPhase := rfl
@[simp] theorem recordFault_txFrame (f : RunFault) : (recordFault f s).txFrame = s.txFrame := rfl
@[simp] theorem recordFault_rng (f : RunFault) : (recordFault f s).rng = s.rng := rfl
@[simp] theorem recordFault_txWritten (f : RunFault) : (recordFault f s).txWritten = s.txWritten := rfl
@[simp] theorem recordFault_calling (f : RunFault) : (recordFault f s).calling = s.calling := rfl
@[simp] theorem recordFault_reading (f : RunFault) : (recordFault f s).reading = s.reading := rfl
@[simp] theorem recordFault_transport (f : RunFault) : (recordFault f s).transport = s.transport := rfl
@[simp] theorem recordFault_clock (f : RunFault) : (recordFault f s).clock = s.clock := rfl
@[simp] theorem recordFault_faultRecord (f : RunFault) : (recordFault f s).faultRecord = some (s.faultRecord.getD f) := rfl
@[simp] theorem recordFault_params (f : RunFault) : (recordFault f s).params = s.params := rfl
@[simp] theorem recordFault_turns (f : RunFault) : (recordFault f s).turns = s.turns := rfl
@[simp] theorem recordFault_sensorIn (f : RunFault) : (recordFault f s).sensorIn = s.sensorIn := rfl
@[simp] theorem recordFault_transportIn (f : RunFault) : (recordFault f s).transportIn = s.transportIn := rfl
@[simp] theorem recordFault_clockIn (f : RunFault) : (recordFault f s).clockIn = s.clockIn := rfl
@[simp] theorem recordFault_drawIn (f : RunFault) : (recordFault f s).drawIn = s.drawIn := rfl
@[simp] theorem recordFault_out (f : RunFault) : (recordFault f s).out = s.out := rfl

@[simp] theorem endRunOnFault_sources (f : RunFault) : (endRunOnFault f s).sources = s.sources := rfl
@[simp] theorem endRunOnFault_slotDuration (f : RunFault) : (endRunOnFault f s).slotDuration = s.slotDuration := rfl
@[simp] theorem endRunOnFault_running (f : RunFault) : (endRunOnFault f s).running = false := rfl
@[simp] theorem endRunOnFault_stopReq (f : RunFault) : (endRunOnFault f s).stopReq = false := rfl
@[simp] theorem endRunOnFault_slotIdx (f : RunFault) : (endRunOnFault f s).slotIdx = s.slotIdx := rfl
@[simp] theorem endRunOnFault_slotPhase (f : RunFault) : (endRunOnFault f s).slotPhase = .boundary := rfl
@[simp] theorem endRunOnFault_txFrame (f : RunFault) : (endRunOnFault f s).txFrame = s.txFrame := rfl
@[simp] theorem endRunOnFault_rng (f : RunFault) : (endRunOnFault f s).rng = s.rng := rfl
@[simp] theorem endRunOnFault_txWritten (f : RunFault) : (endRunOnFault f s).txWritten = s.txWritten := rfl
@[simp] theorem endRunOnFault_calling (f : RunFault) : (endRunOnFault f s).calling = false := rfl
@[simp] theorem endRunOnFault_reading (f : RunFault) : (endRunOnFault f s).reading = s.reading := rfl
@[simp] theorem endRunOnFault_transport (f : RunFault) : (endRunOnFault f s).transport = s.transport := rfl
@[simp] theorem endRunOnFault_clock (f : RunFault) : (endRunOnFault f s).clock = s.clock := rfl
@[simp] theorem endRunOnFault_faultRecord (f : RunFault) : (endRunOnFault f s).faultRecord = some (s.faultRecord.getD f) := rfl
@[simp] theorem endRunOnFault_params (f : RunFault) : (endRunOnFault f s).params = s.params := rfl
@[simp] theorem endRunOnFault_turns (f : RunFault) : (endRunOnFault f s).turns = s.turns := rfl
@[simp] theorem endRunOnFault_sensorIn (f : RunFault) : (endRunOnFault f s).sensorIn = s.sensorIn := rfl
@[simp] theorem endRunOnFault_transportIn (f : RunFault) : (endRunOnFault f s).transportIn = s.transportIn := rfl
@[simp] theorem endRunOnFault_clockIn (f : RunFault) : (endRunOnFault f s).clockIn = s.clockIn := rfl
@[simp] theorem endRunOnFault_drawIn (f : RunFault) : (endRunOnFault f s).drawIn = s.drawIn := rfl
@[simp] theorem endRunOnFault_out (f : RunFault) : (endRunOnFault f s).out = s.out ++ [.response .tdmaStart .valueOutOfRange .nothing] := rfl

@[simp] theorem askDraws_sources (k : Nat) (x : Number) : (askDraws k x s).sources = s.sources := rfl
@[simp] theorem askDraws_slotDuration (k : Nat) (x : Number) : (askDraws k x s).slotDuration = s.slotDuration := rfl
@[simp] theorem askDraws_running (k : Nat) (x : Number) : (askDraws k x s).running = s.running := rfl
@[simp] theorem askDraws_stopReq (k : Nat) (x : Number) : (askDraws k x s).stopReq = s.stopReq := rfl
@[simp] theorem askDraws_slotIdx (k : Nat) (x : Number) : (askDraws k x s).slotIdx = s.slotIdx := rfl
@[simp] theorem askDraws_slotPhase (k : Nat) (x : Number) : (askDraws k x s).slotPhase = s.slotPhase := rfl
@[simp] theorem askDraws_txFrame (k : Nat) (x : Number) : (askDraws k x s).txFrame = s.txFrame := rfl
@[simp] theorem askDraws_rng (k : Nat) (x : Number) : (askDraws k x s).rng = ⟨s.rng.seed, s.rng.drawn + k⟩ := rfl
@[simp] theorem askDraws_txWritten (k : Nat) (x : Number) : (askDraws k x s).txWritten = s.txWritten := rfl
@[simp] theorem askDraws_calling (k : Nat) (x : Number) : (askDraws k x s).calling = s.calling := rfl
@[simp] theorem askDraws_reading (k : Nat) (x : Number) : (askDraws k x s).reading = s.reading := rfl
@[simp] theorem askDraws_transport (k : Nat) (x : Number) : (askDraws k x s).transport = s.transport := rfl
@[simp] theorem askDraws_clock (k : Nat) (x : Number) : (askDraws k x s).clock = s.clock := rfl
@[simp] theorem askDraws_faultRecord (k : Nat) (x : Number) : (askDraws k x s).faultRecord = s.faultRecord := rfl
@[simp] theorem askDraws_params (k : Nat) (x : Number) : (askDraws k x s).params = s.params := rfl
@[simp] theorem askDraws_turns (k : Nat) (x : Number) : (askDraws k x s).turns = s.turns := rfl
@[simp] theorem askDraws_sensorIn (k : Nat) (x : Number) : (askDraws k x s).sensorIn = s.sensorIn := rfl
@[simp] theorem askDraws_transportIn (k : Nat) (x : Number) : (askDraws k x s).transportIn = s.transportIn := rfl
@[simp] theorem askDraws_clockIn (k : Nat) (x : Number) : (askDraws k x s).clockIn = s.clockIn := rfl
@[simp] theorem askDraws_drawIn (k : Nat) (x : Number) : (askDraws k x s).drawIn = s.drawIn.drop k := rfl
@[simp] theorem askDraws_out (k : Nat) (x : Number) : (askDraws k x s).out = s.out ++ List.replicate k (.draw x) := rfl

@[simp] theorem advance_sources : (advance s).sources = s.sources := rfl
@[simp] theorem advance_slotDuration : (advance s).slotDuration = s.slotDuration := rfl
@[simp] theorem advance_running : (advance s).running = s.running := rfl
@[simp] theorem advance_stopReq : (advance s).stopReq = s.stopReq := rfl
@[simp] theorem advance_slotIdx : (advance s).slotIdx = (s.slotIdx + 1) % s.sources.length := rfl
@[simp] theorem advance_slotPhase : (advance s).slotPhase = .boundary := rfl
@[simp] theorem advance_txFrame : (advance s).txFrame = s.txFrame := rfl
@[simp] theorem advance_rng : (advance s).rng = s.rng := rfl
@[simp] theorem advance_txWritten : (advance s).txWritten = s.txWritten := rfl
@[simp] theorem advance_calling : (advance s).calling = false := rfl
@[simp] theorem advance_reading : (advance s).reading = s.reading := rfl
@[simp] theorem advance_transport : (advance s).transport = s.transport := rfl
@[simp] theorem advance_clock : (advance s).clock = s.clock := rfl
@[simp] theorem advance_faultRecord : (advance s).faultRecord = s.faultRecord := rfl
@[simp] theorem advance_params : (advance s).params = s.params := rfl
@[simp] theorem advance_turns : (advance s).turns = s.turns := rfl
@[simp] theorem advance_sensorIn : (advance s).sensorIn = s.sensorIn := rfl
@[simp] theorem advance_transportIn : (advance s).transportIn = s.transportIn := rfl
@[simp] theorem advance_clockIn : (advance s).clockIn = s.clockIn := rfl
@[simp] theorem advance_drawIn : (advance s).drawIn = s.drawIn := rfl
@[simp] theorem advance_out : (advance s).out = s.out := rfl

@[simp] theorem enterRun_sources (t c : Nat) : (enterRun t c s).sources = s.sources := rfl
@[simp] theorem enterRun_slotDuration (t c : Nat) : (enterRun t c s).slotDuration = s.slotDuration := rfl
@[simp] theorem enterRun_running (t c : Nat) : (enterRun t c s).running = true := rfl
@[simp] theorem enterRun_stopReq (t c : Nat) : (enterRun t c s).stopReq = false := rfl
@[simp] theorem enterRun_slotIdx (t c : Nat) : (enterRun t c s).slotIdx = 0 := rfl
@[simp] theorem enterRun_slotPhase (t c : Nat) : (enterRun t c s).slotPhase = .boundary := rfl
@[simp] theorem enterRun_txFrame (t c : Nat) : (enterRun t c s).txFrame = s.txFrame := rfl
@[simp] theorem enterRun_rng (t c : Nat) : (enterRun t c s).rng = s.rng := rfl
@[simp] theorem enterRun_txWritten (t c : Nat) : (enterRun t c s).txWritten = s.txWritten := rfl
@[simp] theorem enterRun_calling (t c : Nat) : (enterRun t c s).calling = false := rfl
@[simp] theorem enterRun_reading (t c : Nat) : (enterRun t c s).reading = s.reading := rfl
@[simp] theorem enterRun_transport (t c : Nat) : (enterRun t c s).transport = t := rfl
@[simp] theorem enterRun_clock (t c : Nat) : (enterRun t c s).clock = c := rfl
@[simp] theorem enterRun_faultRecord (t c : Nat) : (enterRun t c s).faultRecord = s.faultRecord := rfl
@[simp] theorem enterRun_params (t c : Nat) : (enterRun t c s).params = s.params := rfl
@[simp] theorem enterRun_turns (t c : Nat) : (enterRun t c s).turns = s.turns := rfl
@[simp] theorem enterRun_sensorIn (t c : Nat) : (enterRun t c s).sensorIn = s.sensorIn := rfl
@[simp] theorem enterRun_transportIn (t c : Nat) : (enterRun t c s).transportIn = s.transportIn := rfl
@[simp] theorem enterRun_clockIn (t c : Nat) : (enterRun t c s).clockIn = s.clockIn := rfl
@[simp] theorem enterRun_drawIn (t c : Nat) : (enterRun t c s).drawIn = s.drawIn := rfl
@[simp] theorem enterRun_out (t c : Nat) : (enterRun t c s).out = s.out := rfl

@[simp] theorem resetBlock_sources : (resetBlock s).sources = [] := rfl
@[simp] theorem resetBlock_slotDuration : (resetBlock s).slotDuration = s.params.slotDuration := rfl
@[simp] theorem resetBlock_running : (resetBlock s).running = false := rfl
@[simp] theorem resetBlock_stopReq : (resetBlock s).stopReq = false := rfl
@[simp] theorem resetBlock_slotIdx : (resetBlock s).slotIdx = 0 := rfl
@[simp] theorem resetBlock_slotPhase : (resetBlock s).slotPhase = .boundary := rfl
@[simp] theorem resetBlock_txFrame : (resetBlock s).txFrame = 0#64 := rfl
@[simp] theorem resetBlock_rng : (resetBlock s).rng = ⟨s.params.rngSeed, 0⟩ := rfl
@[simp] theorem resetBlock_txWritten : (resetBlock s).txWritten = false := rfl
@[simp] theorem resetBlock_calling : (resetBlock s).calling = false := rfl
@[simp] theorem resetBlock_reading : (resetBlock s).reading = 0 := rfl
@[simp] theorem resetBlock_transport : (resetBlock s).transport = 0 := rfl
@[simp] theorem resetBlock_clock : (resetBlock s).clock = 0 := rfl
@[simp] theorem resetBlock_faultRecord : (resetBlock s).faultRecord = s.faultRecord := rfl
@[simp] theorem resetBlock_params : (resetBlock s).params = s.params := rfl
@[simp] theorem resetBlock_turns : (resetBlock s).turns = s.turns := rfl
@[simp] theorem resetBlock_sensorIn : (resetBlock s).sensorIn = s.sensorIn := rfl
@[simp] theorem resetBlock_transportIn : (resetBlock s).transportIn = s.transportIn := rfl
@[simp] theorem resetBlock_clockIn : (resetBlock s).clockIn = s.clockIn := rfl
@[simp] theorem resetBlock_drawIn : (resetBlock s).drawIn = s.drawIn := rfl
@[simp] theorem resetBlock_out : (resetBlock s).out = s.out := rfl

@[simp] theorem requestStop_sources : (requestStop s).sources = s.sources := by unfold requestStop; split <;> rfl
@[simp] theorem requestStop_slotDuration : (requestStop s).slotDuration = s.slotDuration := by unfold requestStop; split <;> rfl
@[simp] theorem requestStop_running : (requestStop s).running = s.running := by unfold requestStop; split <;> rfl
@[simp] theorem requestStop_stopReq : (requestStop s).stopReq = (s.running || s.stopReq) := by
  unfold requestStop; cases s.running <;> rfl
@[simp] theorem requestStop_slotIdx : (requestStop s).slotIdx = s.slotIdx := by unfold requestStop; split <;> rfl
@[simp] theorem requestStop_slotPhase : (requestStop s).slotPhase = s.slotPhase := by unfold requestStop; split <;> rfl
@[simp] theorem requestStop_txFrame : (requestStop s).txFrame = s.txFrame := by unfold requestStop; split <;> rfl
@[simp] theorem requestStop_rng : (requestStop s).rng = s.rng := by unfold requestStop; split <;> rfl
@[simp] theorem requestStop_txWritten : (requestStop s).txWritten = s.txWritten := by unfold requestStop; split <;> rfl
@[simp] theorem requestStop_calling : (requestStop s).calling = s.calling := by unfold requestStop; split <;> rfl
@[simp] theorem requestStop_reading : (requestStop s).reading = s.reading := by unfold requestStop; split <;> rfl
@[simp] theorem requestStop_transport : (requestStop s).transport = s.transport := by unfold requestStop; split <;> rfl
@[simp] theorem requestStop_clock : (requestStop s).clock = s.clock := by unfold requestStop; split <;> rfl
@[simp] theorem requestStop_faultRecord : (requestStop s).faultRecord = s.faultRecord := by unfold requestStop; split <;> rfl
@[simp] theorem requestStop_params : (requestStop s).params = s.params := by unfold requestStop; split <;> rfl
@[simp] theorem requestStop_turns : (requestStop s).turns = s.turns := by unfold requestStop; split <;> rfl
@[simp] theorem requestStop_sensorIn : (requestStop s).sensorIn = s.sensorIn := by unfold requestStop; split <;> rfl
@[simp] theorem requestStop_transportIn : (requestStop s).transportIn = s.transportIn := by unfold requestStop; split <;> rfl
@[simp] theorem requestStop_clockIn : (requestStop s).clockIn = s.clockIn := by unfold requestStop; split <;> rfl
@[simp] theorem requestStop_drawIn : (requestStop s).drawIn = s.drawIn := by unfold requestStop; split <;> rfl
@[simp] theorem requestStop_out : (requestStop s).out = s.out := by unfold requestStop; split <;> rfl

end Sys2Proof.Machine
end

