-- ==== Sys2Proof/Laws/Ops.lean ====
section
/-! SUPPORT. What each shared operation answers: the codecs, the checks, the channel, the draws. -/

namespace Sys2Proof.Machine

theorem mask_toNat (n : Nat) (v : Int) : ((mask n v).toNat : Int) = v % (2 ^ n : Nat) := by
  simp only [mask, BitVec.toNat_ofInt]
  exact Int.toNat_of_nonneg (Int.emod_nonneg _ (by positivity))

/-- Reducing an operand that fits its field leaves it as it is (R70). -/
theorem mask_toNat_of_fits {n : Nat} {v : Int} (h0 : 0 ≤ v) (h1 : v < (2 ^ n : Nat)) : ((mask n v).toNat : Int) = v := by
  rw [mask_toNat, Int.emod_eq_of_lt h0 h1]

/-- A shifted part beside a narrower one, as a sum (R61, R65). -/
theorem shift_or_eq_add {x n y : Nat} (h : y < 2 ^ n) : x <<< n ||| y = x * 2 ^ n + y := by
  rw [← Nat.shiftLeft_add_eq_or_of_lt h, Nat.shiftLeft_eq]

/-- `mask_n` as a remainder. -/
theorem mask_eq_ofNat (n : Nat) (v : Int) : mask n v = BitVec.ofNat n (v % (2 ^ n : Nat)).toNat := by
  apply BitVec.eq_of_toNat_eq
  have h := mask_toNat n v
  have h0 := Int.emod_nonneg v (b := ((2 ^ n : Nat) : Int)) (by positivity)
  have h1 := Int.emod_lt_of_pos v (b := ((2 ^ n : Nat) : Int)) (by positivity)
  rw [BitVec.toNat_ofNat, Nat.mod_eq_of_lt (by omega)]
  omega

theorem rangeCheck_mask (flag dest src data : Int) :
    rangeCheck .mask flag dest src data = some ⟨mask 4 flag, mask 10 dest, mask 10 src, mask 24 data⟩ := rfl

/-- Under either policy an answer of the range check is the reduced operands (R93). -/
theorem rangeCheck_some {p : EncRangePolicy} {flag dest src data : Int} {f : FieldBits}
    (h : rangeCheck p flag dest src data = some f) : f = ⟨mask 4 flag, mask 10 dest, mask 10 src, mask 24 data⟩ := by
  cases p with
  | mask => exact (Option.some.inj h).symm
  | reject =>
    simp only [rangeCheck] at h
    split at h
    · exact (Option.some.inj h).symm
    · cases h

/-- The halves of the wire bits of a frame (R63). -/
theorem wireFrame_halves (f : FieldBits) :
    (wireFrame f).extractLsb' 32 32 = wireInvert (word0 f)
      ∧ (wireFrame f).extractLsb' 0 32 = wireInvert (word1 f (crc8 f)) := by
  have h1 := (wireInvert (word1 f (crc8 f))).isLt
  have h0 := (wireInvert (word0 f)).isLt
  constructor
  · apply BitVec.eq_of_toNat_eq
    simp only [wireFrame, toNat_field, toNat_append_add]; omega
  · apply BitVec.eq_of_toNat_eq
    simp only [wireFrame, toNat_field, toNat_append_add]; omega

/-- FRAME.DEC of the bytes of 64 wire bits reads their two halves (R72). -/
theorem frameDecode_frameBytes (w : BitVec 64) :
    frameDecode (frameBytes w) = some (decodeHalves (w.extractLsb' 32 32) (w.extractLsb' 0 32)) := by
  have hw (x : BitVec 32) : x.extractLsb' 24 8 ++ x.extractLsb' 16 8 ++ x.extractLsb' 8 8 ++ x.extractLsb' 0 8 = x := by
    apply BitVec.eq_of_toNat_eq
    have := x.isLt
    simp only [toNat_field, toNat_append_add]; omega
  simp only [frameBytes, wordBytes, List.cons_append, List.nil_append, frameDecode, hw]

/-- Inverting twice changes nothing (R63). -/
@[simp] theorem wireInvert_wireInvert (w : BitVec 32) : wireInvert (wireInvert w) = w := by simp [wireInvert]

@[simp] theorem decodeHalves_wire (f : FieldBits) (crc : BitVec 8) :
    decodeHalves (wireInvert (word0 f)) (wireInvert (word1 f crc))
      = ⟨sfd, f.flag, f.dest, f.src, f.data, crc, checksumValid f crc⟩ := by
  have hf := f.flag.isLt
  have hd := f.dest.isLt
  have hs := f.src.isLt
  have hp := f.data.isLt
  have hc := crc.isLt
  have e1 : (word0 f).extractLsb' 20 4 = f.flag := by
    apply BitVec.eq_of_toNat_eq; simp only [word0, toNat_field, toNat_append_add]; omega
  have e2 : (word0 f).extractLsb' 10 10 = f.dest := by
    apply BitVec.eq_of_toNat_eq; simp only [word0, toNat_field, toNat_append_add]; omega
  have e3 : (word0 f).extractLsb' 0 10 = f.src := by
    apply BitVec.eq_of_toNat_eq; simp only [word0, toNat_field, toNat_append_add]; omega
  have e4 : (word0 f).extractLsb' 24 8 = sfd := by
    apply BitVec.eq_of_toNat_eq
    have : sfd.toNat = 0xA5 := rfl
    simp only [word0, toNat_field, toNat_append_add]; omega
  have e5 : (word1 f crc).extractLsb' 8 24 = f.data := by
    apply BitVec.eq_of_toNat_eq; simp only [word1, toNat_field, toNat_append_add]; omega
  have e6 : (word1 f crc).extractLsb' 0 8 = crc := by
    apply BitVec.eq_of_toNat_eq; simp only [word1, toNat_field, toNat_append_add]; omega
  simp only [decodeHalves, wireInvert_wireInvert, e1, e2, e3, e4, e5, e6]

/-- FRAME.DEC of the wire bytes of fields gives the fields back with a true verdict. -/
theorem frameDecode_wireFrame (f : FieldBits) :
    frameDecode (frameBytes (wireFrame f)) = some ⟨sfd, f.flag, f.dest, f.src, f.data, crc8 f, true⟩ := by
  rw [frameDecode_frameBytes, (wireFrame_halves f).1, (wireFrame_halves f).2, decodeHalves_wire]
  simp [checksumValid]

/-- The draw number `n` from here on, counted from 0: the oldest fixed one, else the random source's (R163). -/
def drawAt (scale : Number) (s : State) (n : Nat) : Number :=
  (s.drawIn[n]?).getD (Config.normalDraw s.rng.seed (s.rng.drawn + n) scale)

/-- One draw (R163, R201). -/
theorem drawNormal_eq (scale : Number) (s : State) : drawNormal scale s = (drawAt scale s 0, askDraws 1 scale s) := by
  simp [drawNormal, drawAt, List.head?_eq_getElem?]

/-- Draws asked in two goes. -/
theorem askDraws_askDraws (j k : Nat) (x : Number) (s : State) : askDraws k x (askDraws j x s) = askDraws (j + k) x s := by
  simp [askDraws, Nat.add_assoc, List.append_assoc, List.replicate_append_replicate]

/-- After some draws the next ones are those that follow. -/
@[simp] theorem drawAt_askDraws (x scale : Number) (j n : Nat) (s : State) :
    drawAt scale (askDraws j x s) n = drawAt scale s (j + n) := by
  simp [drawAt, Nat.add_assoc]

/-- The channel makes two draws a sample and treats each sample on its own (R160, R165, R166). -/
theorem channel_eq (noise : Number) (xs : List Sample) (s : State) :
    ∃ ys, channel noise xs s = (ys, askDraws (2 * xs.length) noise s)
      ∧ ys.length = xs.length
      ∧ ∀ k (hk : k < xs.length), ys[k]? = some
          (perturb s.params.arith xs[k] (drawAt noise s (2 * k)) (drawAt noise s (2 * k + 1))) := by
  induction xs generalizing s with
  | nil => exact ⟨[], by simp [channel, askDraws]⟩
  | cons x xs ih =>
    obtain ⟨ys, hy, hl, hk⟩ := ih (askDraws 2 noise s)
    refine ⟨perturb s.params.arith x (drawAt noise s 0) (drawAt noise s 1) :: ys, ?_, by simp [hl], ?_⟩
    · simp only [channel, drawNormal_eq, askDraws_askDraws, drawAt_askDraws, hy, List.length_cons]
      rw [show 2 + 2 * xs.length = 2 * (xs.length + 1) by omega]
    · intro k hk'
      cases k with
      | zero => rfl
      | succ k =>
        have := hk k (by simpa using hk')
        simp only [drawAt_askDraws, askDraws_params] at this
        simp only [List.getElem?_cons_succ, List.getElem_cons_succ, this]
        congr 3 <;> omega

/-- Construction answers a block in its reset state, or refuses the parameters (D25). -/
theorem construct_next {p : Params} {t : State} (h : construct p = .next t) :
    numberNonNegative p.slotDuration = true ∧ t = State.resetValues p := by
  simp only [construct] at h
  split at h
  · cases h; exact ⟨by assumption, rfl⟩
  · cases h

/-- The reset line, as one choice of three (R210, R212, D25). -/
theorem takeReset_eq (s : State) :
    takeReset s = if s.running then .refused .resetWhileRunning
      else if numberNonNegative s.params.slotDuration then .next (resetBlock s)
      else .refused .slotDurationOutOfDomain := by
  simp only [takeReset, construct]
  split
  · rfl
  · cases h : numberNonNegative s.params.slotDuration <;> simp

end Sys2Proof.Machine
end

