-- ==== Sys2Proof/Laws/Moves.lean ====
section
/-! SUPPORT. What a move can do, once for each kind of move: an operation, a turn of the scheduler, a step. Every
invariant and frame is derived from these. -/

namespace Sys2Proof.Machine

/-- The next states of an operation. -/
inductive ExecMove (s : State) : Instr → State → Prop where
  | responds (i : Instr) (status : Status) (r : Result) : ExecMove s i (respond i.op status r s)
  | adds (r : SourceRecord) (stopped : s.running = false) (known : r.kind ≠ .unknown) (room : sourceListFull s = false) :
      ExecMove s (.tdmaAdd r) (answer .tdmaAdd .nothing { s with sources := s.sources ++ [r] })
  | starts (t c : Nat) (stopped : s.running = false) (some : s.sources ≠ []) :
      ExecMove s (.tdmaStart t c) (enterRun t c s)
  | stops : ExecMove s .tdmaStop (answer .tdmaStop .nothing (requestStop s))
  | draws (signal : List Sample) (noise : Number) (k : Nat) (r : Result) :
      ExecMove s (.chanApply signal noise) (answer .chanApply r (askDraws k noise s))

theorem exec_move {i : Instr} {s t : State} (h : exec i s = .next t) : ExecMove s i t := by
  cases i with
  | frameEnc flag dest src data =>
    simp only [exec, execFrameEnc] at h
    split at h <;> (cases h; exact .responds (.frameEnc flag dest src data) _ _)
  | frameDec bytes =>
    simp only [exec, execFrameDec] at h
    split at h <;> (cases h; exact .responds (.frameDec bytes) _ _)
  | sensPack nb te aq =>
    simp only [exec, execSensPack] at h
    split at h <;> (cases h; exact .responds (.sensPack nb te aq) _ _)
  | sensUnpack data => cases h; exact .responds (.sensUnpack data) _ _
  | tdmaAdd r =>
    simp only [exec, execTdmaAdd] at h
    split at h
    · cases h; exact .responds (.tdmaAdd r) _ _
    · split at h
      · cases h; exact .responds (.tdmaAdd r) _ _
      · split at h
        · cases h
        · cases h; exact .adds r (by simp_all) (by assumption) (by simp_all)
  | tdmaStart tr c =>
    simp only [exec, execTdmaStart] at h
    split at h
    · cases h; exact .responds (.tdmaStart tr c) _ _
    · split at h
      · cases h; exact .responds (.tdmaStart tr c) _ _
      · cases h; exact .starts tr c (by simp_all) (by simp_all)
  | tdmaStop => cases h; exact .stops
  | bpskMod bytes =>
    simp only [exec, execBpskMod] at h
    split at h
    · cases h; exact .responds (.bpskMod bytes) _ _
    · cases h
  | chanApply signal noise =>
    simp only [exec, execChanApply] at h
    split at h
    · cases h
    · split at h
      · cases h; exact .draws signal noise _ _
      · obtain ⟨ys, hy, -, -⟩ := channel_eq noise signal s
        rw [hy] at h; cases h; exact .draws signal noise _ _
  | bpskDemod signal => cases h; exact .responds (.bpskDemod signal) _ _

/-- The next states of a turn of the scheduler (R126 to R131, R135). -/
inductive SchedulerMove (s : State) : State → Prop where
  | stays : SchedulerMove s s
  | ends (run : s.running = true) (stop : s.stopReq = true) (at_ : s.slotPhase = .boundary) :
      SchedulerMove s (endRun .ok s)
  | opens (run : s.running = true) (stop : s.stopReq = false) (at_ : s.slotPhase = .boundary) :
      SchedulerMove s { s with slotPhase := .read, calling := false }
  | callsSensor (r : SourceRecord) (run : s.running = true) (at_ : s.slotPhase = .read)
      (src : s.sources[s.slotIdx]? = some r) :
      SchedulerMove s (emit (.sensorRead s.slotIdx r.port) { s with calling := true })
  | reads (v : Int) (rest : List SensorAnswer) (run : s.running = true) (at_ : s.slotPhase = .read)
      (inp : s.sensorIn = .value v :: rest) :
      SchedulerMove s { s with sensorIn := rest, reading := v, calling := false, slotPhase := .build }
  | readFails (rest : List SensorAnswer) (run : s.running = true) (at_ : s.slotPhase = .read)
      (inp : s.sensorIn = .fails :: rest) :
      SchedulerMove s (endRunOnFault (.sensorReadFailed s.slotIdx) { s with sensorIn := rest })
  | builds (r : SourceRecord) (w : BitVec 64) (run : s.running = true) (at_ : s.slotPhase = .build)
      (src : s.sources[s.slotIdx]? = some r) (frame : buildFrame s.params r s.reading = some w) :
      SchedulerMove s { s with txFrame := w, txWritten := true, calling := false, slotPhase := .transmit }
  | buildFails (r : SourceRecord) (run : s.running = true) (at_ : s.slotPhase = .build)
      (src : s.sources[s.slotIdx]? = some r) (frame : buildFrame s.params r s.reading = none) :
      SchedulerMove s (endRunOnFault (.buildError s.slotIdx) s)
  | callsTransport (run : s.running = true) (at_ : s.slotPhase = .transmit) (written : s.txWritten = true) :
      SchedulerMove s (emit (.transmit s.transport (frameBytes s.txFrame)) { s with calling := true })
  | sent (rest : List TransportAnswer) (run : s.running = true) (at_ : s.slotPhase = .transmit)
      (inp : s.transportIn = .ok :: rest) :
      SchedulerMove s { s with transportIn := rest, calling := false, slotPhase := .suspend }
  | notSent (rest : List TransportAnswer) (run : s.running = true) (at_ : s.slotPhase = .transmit)
      (inp : s.transportIn = .fail :: rest) (suspends : s.params.suspendOnTxFail = true) :
      SchedulerMove s { emit (.event .transportFailure s.slotIdx) { s with transportIn := rest, calling := false } with
        slotPhase := .suspend }
  | skips (rest : List TransportAnswer) (run : s.running = true) (at_ : s.slotPhase = .transmit)
      (range : s.slotIdx < s.sources.length)
      (inp : s.transportIn = .fail :: rest) (suspends : s.params.suspendOnTxFail = false) :
      SchedulerMove s
        (advance (emit (.event .transportFailure s.slotIdx) { s with transportIn := rest, calling := false }))
  | callsClock (run : s.running = true) (at_ : s.slotPhase = .suspend) :
      SchedulerMove s (emit (.suspend s.clock (numberDivNat s.params.arith s.slotDuration s.sources.length))
        { s with calling := true })
  | wakes (n : Nat) (run : s.running = true) (at_ : s.slotPhase = .suspend) (range : s.slotIdx < s.sources.length)
      (inp : s.clockIn = n + 1) : SchedulerMove s (advance { s with clockIn := n })

theorem schedulerTurn_move {s t : State} (h : schedulerTurn s = .next t) : SchedulerMove s t := by
  unfold schedulerTurn at h
  split at h
  · cases h; exact .stays
  rename_i hrun
  have run : s.running = true := by simpa using hrun
  split at h
  · rename_i hs
    simp only [observesStop, Bool.and_eq_true, decide_eq_true_eq] at hs
    cases h; exact .ends run hs.1 hs.2
  rename_i hstop
  split at h
  · rename_i r src
    have range : s.slotIdx < s.sources.length := (List.getElem?_eq_some_iff.mp src).1
    unfold slotPhaseStep at h
    split at h
    · rename_i at_
      cases h; exact .opens run (by simpa [observesStop, at_] using hstop) at_
    · rename_i at_
      unfold readPhase at h
      split at h
      · split at h
        · cases h; exact .reads _ _ run at_ (by assumption)
        · cases h; exact .readFails _ run at_ (by assumption)
        · cases h; exact .stays
      · cases h; exact .callsSensor r run at_ src
    · rename_i at_
      unfold buildPhase at h
      split at h
      · cases h; exact .builds r _ run at_ src (by assumption)
      · cases h; exact .buildFails r run at_ src (by assumption)
    · rename_i at_
      unfold transmitPhase at h
      split at h
      · split at h
        · cases h; exact .sent _ run at_ (by assumption)
        · simp only at h
          split at h
          · cases h; exact .notSent _ run at_ (by assumption) (by assumption)
          · cases h; exact .skips _ run at_ range (by assumption) (by simp_all)
        · cases h; exact .stays
      · split at h
        · cases h; exact .callsTransport run at_ (by assumption)
        · cases h
    · rename_i at_
      unfold suspendPhase at h
      split at h
      · split at h
        · cases h; exact .wakes _ run at_ range (by assumption)
        · cases h; exact .stays
      · cases h; exact .callsClock run at_
  · cases h

/-- A turn of the scheduler stops the machine only at a position that is none, or on a frame never built. -/
theorem schedulerTurn_fault {s : State} {f : Fault} (h : schedulerTurn s = .fault f) :
    s.running = true ∧ (s.sources[s.slotIdx]? = none ∨ s.slotPhase = .transmit ∧ s.txWritten = false) := by
  unfold schedulerTurn at h
  split at h
  · cases h
  rename_i hrun
  refine ⟨by simpa using hrun, ?_⟩
  split at h
  · cases h
  split at h
  · unfold slotPhaseStep at h
    split at h
    · cases h
    · unfold readPhase at h
      repeat' split at h
      all_goals cases h
    · unfold buildPhase at h
      split at h <;> cases h
    · rename_i at_
      unfold transmitPhase at h
      split at h
      · split at h <;> (try simp only at h)
        · cases h
        · split at h <;> cases h
        · cases h
      · split at h
        · cases h
        · exact .inr ⟨at_, by simp_all⟩
    · unfold suspendPhase at h
      repeat' split at h
      all_goals cases h
  · exact .inl (by assumption)

/-- The next states of a step. -/
inductive StepMove (s : State) : State → Prop where
  | operates (request : List Byte) (i : Instr) (rest : List Turn) (t : State) (turn : s.turns = .host request :: rest)
      (decoded : decodeRequest request = .ok i) (runs : exec i { s with turns := rest } = .next t) : StepMove s t
  | schedules (rest : List Turn) (t : State) (turn : s.turns = .scheduler :: rest ∨ s.turns = [] ∧ rest = [])
      (runs : schedulerTurn { s with turns := rest } = .next t) : StepMove s t
  | raisesStop (rest : List Turn) (turn : s.turns = .stopLine :: rest) : StepMove s (requestStop { s with turns := rest })
  | resets (rest : List Turn) (turn : s.turns = .resetLine :: rest) (stopped : s.running = false)
      (domain : numberNonNegative s.params.slotDuration = true) : StepMove s (resetBlock { s with turns := rest })

theorem step_move {s t : State} (h : step s = .next t) : StepMove s t := by
  unfold step fetch at h
  rcases hturns : s.turns with _ | ⟨turn, rest⟩
  · have hs : { s with turns := [] } = s := by cases s; simp_all
    simp only [hturns] at h
    exact .schedules [] t (.inr ⟨hturns, rfl⟩) (by rw [hs]; exact h)
  · cases turn with
    | host request =>
      simp only [hturns] at h
      cases hd : decodeRequest request with
      | ok i => rw [hd] at h; exact .operates request i rest t hturns hd h
      | error e => rw [hd] at h; cases h
    | scheduler => simp only [hturns] at h; exact .schedules rest t (.inl hturns) h
    | stopLine => simp only [hturns] at h; cases h; exact .raisesStop rest hturns
    | resetLine =>
      simp only [hturns, takeReset_eq] at h
      split at h
      · cases h
      · split at h
        · cases h; exact .resets rest hturns (by simp_all) (by simp_all)
        · cases h

/-- No operation stops the machine with a fault. -/
theorem exec_ne_fault (i : Instr) (s : State) (f : Fault) : exec i s ≠ .fault f := by
  cases i <;> simp only [exec, execFrameEnc, execFrameDec, execSensPack, execSensUnpack, execTdmaAdd, execTdmaStart,
    execTdmaStop, execBpskMod, execChanApply, execBpskDemod] <;> (repeat' split) <;> simp

/-- A state with other turns to come meets the invariant as well. -/
theorem inv_turns (s : State) (rest : List Turn) (h : s.Inv) : ({ s with turns := rest } : State).Inv :=
  ⟨⟨h.run.1, h.run.2, h.run.3⟩, ⟨h.slot.1, h.slot.2⟩, ⟨h.list.1, h.list.2, h.list.3⟩⟩

/-- One step of a run on the host's interface. -/
theorem run_succ (n : Nat) (s : State) :
    Host.Core.run Sys2Proof.core (n + 1) s
      = match step s with
        | .next t => Host.Core.run Sys2Proof.core n t
        | .fault r => .fault r
        | .refused r => .refused r := by
  cases h : step s <;> simp [Host.Core.run, show Sys2Proof.core.step s = _ from h]

@[simp] theorem run_zero (s : State) : Host.Core.run Sys2Proof.core 0 s = .next s := rfl

/-- With no turn named, a step is a turn of the scheduler. -/
theorem step_noTurns {s : State} (h : s.turns = []) : step s = schedulerTurn s := by simp [step, fetch, h]

end Sys2Proof.Machine
end

