-- ==== Sys2Proof/Laws/PerInstr.lean ====
section
/-! SUPPORT. Per instruction: its encoding leads with its operation code, and the code names its operation. -/

namespace Sys2Proof.Laws.OpcodeFirst

/-- The first byte of a request holds its operation code in the low four bits and zero above (R75, R76), and no other
operation has that code. -/
def Statement (i : Instr) : Prop :=
  ∃ operands, encode i = BitVec.ofNat 8 i.op.code.toNat :: operands ∧ i.op.code.toNat < 10
    ∧ opOfCode i.op.code = some i.op

theorem frameEnc (flag dest src data : Int) : Statement (.frameEnc flag dest src data) :=
  ⟨_, rfl, code_lt _, rfl⟩

theorem frameDec (bytes : List Byte) : Statement (.frameDec bytes) := ⟨_, rfl, code_lt _, rfl⟩

theorem sensPack (nb t aq : Int) : Statement (.sensPack nb t aq) := ⟨_, rfl, code_lt _, rfl⟩

theorem sensUnpack (data : Int) : Statement (.sensUnpack data) := ⟨_, rfl, code_lt _, rfl⟩

theorem tdmaAdd (r : SourceRecord) : Statement (.tdmaAdd r) := ⟨_, rfl, code_lt _, rfl⟩

theorem tdmaStart (t c : Nat) : Statement (.tdmaStart t c) := ⟨_, rfl, code_lt _, rfl⟩

theorem tdmaStop : Statement .tdmaStop := ⟨_, rfl, code_lt _, rfl⟩

theorem bpskMod (bytes : List Byte) : Statement (.bpskMod bytes) := ⟨_, rfl, code_lt _, rfl⟩

theorem chanApply (signal : List Sample) (noise : Number) : Statement (.chanApply signal noise) :=
  ⟨_, rfl, code_lt _, rfl⟩

theorem bpskDemod (signal : List Sample) : Statement (.bpskDemod signal) := ⟨_, rfl, code_lt _, rfl⟩

end Sys2Proof.Laws.OpcodeFirst
end

