-- ==== Sys2Proof/Tests/Slice0.lean ====
section
/-! SUPPORT. The model against the vectors of spec/95_test_vectors.md, requests written out by hand, and for every
statement with premises a state that meets them. Expected values come from the spec, never from the model. -/

namespace Sys2Proof.Tests

open Sys2Proof Sys2Proof.Machine Sys2Proof.Statements

/-! What an outcome shows. -/

def nextOf : StepResult → Option State
  | .next s => some s
  | _ => none

def refusalIn : StepResult → Option Refusal
  | .refused r => some r
  | _ => none

/-- The last thing put on a port. -/
def lastOut (o : StepResult) : Option Output := (nextOf o).bind fun s => s.out.getLast?

/-- The results of a request that was answered `Ok`. -/
def okResult (o : StepResult) : Option Result :=
  match lastOut o with
  | some (.response _ .ok r) => some r
  | _ => none

/-- The status of a request that was answered with no result. -/
def bareStatus (o : StepResult) : Option Status :=
  match lastOut o with
  | some (.response _ status .nothing) => some status
  | _ => none

def runFor (n : Nat) (s : State) : Option State := nextOf (Host.Core.run Sys2Proof.core n s)

/-! Small states, with the sources of the spec's section 2.6. -/

def temp : SourceRecord := ⟨.temperature, 12, 15, 5⟩
def occ : SourceRecord := ⟨.occupancy, 12, 16, 6⟩
def stranger : SourceRecord := ⟨.unknown, 12, 16, 8⟩

def stopped : State := { State.reset with sources := [temp, occ], slotDuration := .fin 1 }
def running (p : SlotPhase) : State := { stopped with running := true, slotPhase := p, txWritten := true }
def answered (p : SlotPhase) : State :=
  { running p with sensorIn := [.value (-5), .value 10], transportIn := [.ok, .ok], clockIn := 2 }
def rejecting : State := { State.reset with params := { Params.default with encRange := .reject } }
def capacityTwo : State := { stopped with params := { Params.default with maxSources := some 2 } }
def maxBytesEight : State := { State.reset with params := { Params.default with maxBytes := some 8 } }
def withTurn (t : Turn) (s : State) : State := { s with turns := [t] }

/-- The frame E3 of the spec. -/
def frameE3 : List Byte := [0x5A, 0xEF, 0xCF, 0xF0, 0xF5, 0x04, 0xEB, 0x35]
def minusOne : Sample := ⟨.fin (-1), .fin 0⟩
def plusOne : Sample := ⟨.fin 1, .fin 0⟩

/-! Operand domains: each check refuses an ill-formed term (R164). -/

theorem test_wellFormed_refuses_negative : (Instr.chanApply [] (.fin (-1))).wellFormed = false := by decide
theorem test_wellFormed_refuses_infinite : (Instr.chanApply [] (.inf false)).wellFormed = false := by decide
theorem test_wellFormed_refuses_nan : (Instr.chanApply [] .nan).wellFormed = false := by decide
theorem test_wellFormed_refuses_negative_real :
    (Instr.chanApply [] (.real (.sub (.cos (.rat 1)) (.rat 1)))).wellFormed = false := by decide +kernel
theorem test_wellFormed_accepts_zero : (Instr.chanApply [] .negZero).wellFormed = true := by decide

/-! Requests, the bytes written by hand: the operation code of R76, then the operands. -/

theorem test_decode_frameEnc :
    decodeRequest [0x00, 0x02, 0x18, 0x1E, 0xA8, 0xEC, 0x57] = .ok (.frameEnc 1 12 15 719636) := by decide
theorem test_decode_frameDec : decodeRequest [0x01, 0x02, 0x5A, 0xEF] = .ok (.frameDec [0x5A, 0xEF]) := by decide
theorem test_decode_sensPack : decodeRequest [0x02, 0x14, 0x09, 0x28] = .ok (.sensPack 10 (-5) 20) := by decide
theorem test_decode_sensUnpack : decodeRequest [0x03, 0xFF, 0x01] = .ok (.sensUnpack (-128)) := by decide
/-- R74: kind 1, dest 12, src 15 is `1 << 20 | 12 << 10 | 15`, that is 0x10300F. -/
theorem test_decode_tdmaAdd : decodeRequest [0x04, 0x8F, 0xE0, 0x40, 0x05] = .ok (.tdmaAdd temp) := by decide
theorem test_decode_tdmaStart : decodeRequest [0x05, 0x01, 0x81, 0x01] = .ok (.tdmaStart 1 129) := by decide
theorem test_decode_tdmaStop : decodeRequest [0x06] = .ok .tdmaStop := by decide
theorem test_decode_bpskMod : decodeRequest [0x07, 0x01, 0xA5] = .ok (.bpskMod [0xA5]) := by decide
theorem test_decode_chanApply :
    decodeRequest [0x08, 0x01, 0x00, 0x01, 0x00, 0x04, 0x03] = .ok (.chanApply [⟨.fin (-1), .negZero⟩] .nan) := by decide
/-- Tag 5 and a term: the cosine of 1 times pi. -/
theorem test_decode_real :
    decodeRequest [0x08, 0x00, 0x05, 0x06, 0x05, 0x00, 0x02, 0x00, 0x01]
      = .ok (.chanApply [] (.real (.cos (.mul (.rat 1) .pi)))) := by decide
theorem test_decode_bpskDemod :
    decodeRequest [0x09, 0x01, 0x01, 0x02] = .ok (.bpskDemod [⟨.inf false, .inf true⟩]) := by decide
theorem test_decode_refuses_record : decodeRequest [0x04, 0x80, 0x80, 0x80, 0x02, 0x00] = .error .recordTooWide := by decide
theorem test_decode_refuses_trailing : decodeRequest [0x06, 0x01] = .error .trailingBytes := by decide

/-- `withFetchWord` places TDMA.STOP, and the very next step runs it. -/
theorem test_fetchWord : bareStatus (step (State.reset.withFetchWord 8 6)) = some .ok := by decide

/-! FRAME.ENC, FRAME.DEC (2.2, 2.3). -/

theorem test_frameEnc_E3_E5 :
    okResult (exec (.frameEnc 1 12 15 0x0AFB14) State.reset) = some (.bytes frameE3)
    ∧ okResult (exec (.frameEnc 0 1023 0 0x800000) State.reset)
        = some (.bytes [0x5A, 0xF0, 0x03, 0xFF, 0x7F, 0xFF, 0xFF, 0x8C]) := by decide

/-- 2.2: an operand wider than its field, masked and rejected. -/
theorem test_frameEnc_policies :
    okResult (exec (.frameEnc 17 1029 2047 0x1FFFFFF) State.reset)
      = okResult (exec (.frameEnc 1 5 1023 0xFFFFFF) State.reset)
    ∧ bareStatus (exec (.frameEnc 16 0 0 0) rejecting) = some .valueOutOfRange := by decide

theorem test_frameDec_D3 :
    okResult (exec (.frameDec [0xA5, 0x10, 0x30, 0x0F, 0x0A, 0xFB, 0x14, 0xCA]) State.reset)
      = some (.frame ⟨0x5A, 14, 1011, 1008, 0xF504EB, 0x35, false⟩) := by decide

theorem test_frameDec_D1_D6 :
    okResult (exec (.frameDec (List.replicate 8 0xFF)) State.reset) = some (.frame ⟨0, 0, 0, 0, 0, 0, true⟩)
    ∧ bareStatus (exec (.frameDec (frameE3.take 7)) State.reset) = some .invalidFrameLength := by decide

/-! SENS.PACK, SENS.UNPACK (2.5). -/

theorem test_sensPack_K1_K10 :
    okResult (exec (.sensPack 10 (-5) 20) State.reset) = some (.data 0x0AFB14)
    ∧ okResult (exec (.sensPack 259 127 (-1)) State.reset) = some (.data 0x037FFF) := by decide

theorem test_sensPack_K6_K7 :
    bareStatus (exec (.sensPack 0 128 0) State.reset) = some .valueOutOfRange
    ∧ bareStatus (exec (.sensPack 0 (-129) 0) State.reset) = some .valueOutOfRange := by decide

theorem test_sensUnpack_U6_U4 :
    okResult (exec (.sensUnpack 0x80FF01) State.reset) = some (.readings 128 (-1) 1)
    ∧ okResult (exec (.sensUnpack 0x008000) State.reset) = some (.readings 0 (-128) 0) := by decide

/-! TDMA.ADD, TDMA.START, TDMA.STOP (2.6). -/

theorem test_tdmaAdd_T4 : (nextOf (exec (.tdmaAdd temp) stopped)).map State.sources = some [temp, occ, temp] := by decide
theorem test_tdmaAdd_T3_T6 :
    bareStatus (exec (.tdmaAdd stranger) stopped) = some .configurationError
    ∧ bareStatus (exec (.tdmaAdd stranger) (running .boundary)) = some .alreadyRunning := by decide

/-- T14: a run begins at source 0 wherever an earlier one stopped; nothing is answered yet. -/
theorem test_tdmaStart_T14 :
    let t := nextOf (exec (.tdmaStart 1 2) { stopped with slotIdx := 1, stopReq := true })
    t.map (fun t => (t.running, t.stopReq, t.slotIdx)) = some (true, false, 0)
    ∧ t.map (fun t => (t.transport, t.clock)) = some (1, 2) ∧ t.map State.out = some [] := by decide
theorem test_tdmaStart_T7_T9 :
    bareStatus (exec (.tdmaStart 1 2) State.reset) = some .noSourcesRegistered
    ∧ bareStatus (exec (.tdmaStart 1 2) (running .read)) = some .alreadyRunning := by decide

theorem test_tdmaStop_T10_T11 :
    (nextOf (exec .tdmaStop stopped)).map State.stopReq = some false
    ∧ (nextOf (exec .tdmaStop (running .read))).map State.stopReq = some true := by decide

/-! BPSK.MOD (2.7), CHAN.APPLY (2.8), BPSK.DEMOD (2.9). -/

theorem test_bpskMod_M4 :
    okResult (exec (.bpskMod [0xA5]) State.reset) = some (.signal
      [minusOne, plusOne, minusOne, plusOne, plusOne, minusOne, plusOne, minusOne]) := by decide
theorem test_bpskMod_length : (modulate frameE3).length = 64 ∧ modulate [] = [] := by decide

/-- C6 and C7: a quarter turn and a half turn, and the scale the block presents (R201). -/
theorem test_chanApply_C6_C7 :
    let t := exec (.chanApply [plusOne, minusOne] (.fin (1 / 2)))
      { State.reset with drawIn := [.real (.mul (.rat (1 / 2)) .pi), .fin (1 / 4), .real .pi, .fin 0] }
    okResult t = some (.signal [⟨.fin (1 / 4), .fin 1⟩, ⟨.fin 1, .fin 0⟩])
    ∧ (nextOf t).map (fun t => t.out.take 4) = some (List.replicate 4 (.draw (.fin (1 / 2)))) := by decide +kernel

/-- C5 and C8: with a phase of 0 the offset reaches the real component only, `phi` being drawn before `eta`. -/
theorem test_chanApply_C5_C8 :
    okResult (exec (.chanApply [plusOne, ⟨.fin (3 / 5), .fin (4 / 5)⟩] (.fin (1 / 2)))
        { State.reset with drawIn := [.fin 0, .fin (-1 / 4), .fin 0, .fin (-1)] })
      = some (.signal [⟨.fin (3 / 4), .fin 0⟩, ⟨.fin (-2 / 5), .fin (4 / 5)⟩]) := by decide +kernel

/-- Q5, eleven samples; and Q2, seven. -/
theorem test_bpskDemod_Q5 :
    okResult (exec (.bpskDemod ([.fin (3 / 10), .fin (-1 / 5), .fin 0, .negZero, .fin (1 / 1000000), .nan, .inf false,
        .inf true, .fin 2, .fin 2, .fin 2].map fun x => ⟨x, .fin 0⟩)) State.reset) = some (.bytes [0x8A]) := by
  decide +kernel
/-- Reals that are no rationals: cos 1 and pi - 3 are above 0, cos 2 and sin 4 below. -/
theorem test_bpskDemod_reals :
    demodulate ([.cos (.rat 1), .cos (.rat 2), .sub .pi (.rat 3), .sin (.rat 4), .sin (.rat 1), .cos .pi,
      .sub (.cos .pi) (.rat (-1)), .sin (.mul .pi (.rat (1 / 2)))].map fun t => ⟨.real t, .fin 0⟩) = [0xA9] := by
  decide +kernel
/-- The difference of the cosine of 1 and itself is 0, which no bounds show. -/
theorem cosOne_sub : denotes (.sub (.cos (.rat 1)) (.cos (.rat 1))) 0 :=
  ⟨Real.cos 1, Real.cos 1, ⟨1, by simp [denotes], rfl⟩, ⟨1, by simp [denotes], rfl⟩, by simp⟩

/-- Reals no bounds settle: the cosine of 1 less itself is 0, so no strength of noise and a bit 0; the real
pi - 3.14159265358979323846 is above 0, and its opposite a strength the block refuses. -/
theorem test_unsettled_reals :
    noiseInDomain (.real (.sub (.cos (.rat 1)) (.cos (.rat 1)))) = true
    ∧ numberIsZero (.real (.sub (.cos (.rat 1)) (.cos (.rat 1)))) = true
    ∧ sampleBit ⟨.real (.sub (.cos (.rat 1)) (.cos (.rat 1))), .fin 0⟩ = false
    ∧ sampleBit ⟨.real (.sub .pi (.rat (314159265358979323846 / 10 ^ 20))), .fin 0⟩ = true
    ∧ noiseInDomain (.real (.sub (.rat (314159265358979323846 / 10 ^ 20)) .pi)) = false := by
  have hc := (realSign_eq_eq cosOne_sub).mpr rfl
  have hp := Real.pi_gt_d20
  have hg : realSign (.sub .pi (.rat (314159265358979323846 / 10 ^ 20))) = .gt :=
    (realSign_eq_gt (t := .sub .pi (.rat _)) (r := Real.pi - ((314159265358979323846 / 10 ^ 20 : Rat) : ℝ)) ⟨_, _, rfl, rfl, rfl⟩).mpr
      (by push_cast; linarith)
  have hl : realSign (.sub (.rat (314159265358979323846 / 10 ^ 20)) .pi) = .lt :=
    (realSign_eq_lt (t := .sub (.rat _) .pi) (r := ((314159265358979323846 / 10 ^ 20 : Rat) : ℝ) - Real.pi) ⟨_, _, rfl, rfl, rfl⟩).mpr
      (by push_cast; linarith)
  simp [sampleBit, hc, hg, hl]
theorem test_bpskDemod_Q2_Q9 :
    demodulate (List.replicate 7 plusOne) = [] ∧ demodulate (List.replicate 8 ⟨.fin 0, .fin 5⟩) = [0x00] := by decide

/-! The slot step (2.6, T13, T15, P5). -/

/-- The frame of slot 1 of P5, and the order of the calls. -/
theorem test_slot_P5 :
    (runFor 8 (answered .boundary)).map State.out
      = some [.sensorRead 0 5, .transmit 0 [0x5A, 0xEF, 0xCF, 0xF0, 0xFF, 0x04, 0xFF, 0x2B], .suspend 0 (.fin (1 / 2))] := by
  decide +kernel

/-- The broken contract of 2.6: the run ends, nothing is transmitted. -/
theorem test_slot_breaks :
    (nextOf (step { running .build with reading := 200 })).map (fun t => (t.running, t.faultRecord, t.out))
      = some (false, some (.buildError 0), [.response .tdmaStart .valueOutOfRange .nothing]) := by decide

/-- The failing transport of P5, slot 2. -/
theorem test_slot_event :
    lastOut (step { running .transmit with slotIdx := 1, calling := true, transportIn := [.fail] })
      = some (.event .transportFailure 1) := by decide

/-! Witnesses: for each statement with premises, premises met, each clause at the edge of its range. -/

/-- E2, every field at its greatest value. -/
theorem witness_FrameEncAnswersInvertedWords :
    15 < 16 ∧ 1023 < 1024 ∧ 0xFFFFFF < 2 ^ 24
    ∧ wireBytes 15 1023 1023 0xFFFFFF = [0x5A, 0x00, 0x00, 0x00, 0x00, 0x00, 0x00, 0xFF] := by decide

/-- Masked out of range; in range under `reject`, at the upper edge; the nearest rejected flag. -/
theorem witness_FrameEncRangePolicy :
    State.reset.params.encRange = .mask ∧ ¬ InFields 17 1029 2047 0x1FFFFFF
    ∧ rejecting.params.encRange = .reject ∧ InFields 15 1023 1023 0xFFFFFF ∧ ¬ InFields 16 0 0 0
    ∧ ¬ InFields 0 0 (-1) 0 := by
  refine ⟨rfl, ?_, rfl, ?_, ?_, ?_⟩ <;> norm_num [InFields]

theorem witness_FrameDecRaisesOnOtherLengths :
    ([] : List Byte).length ≠ 8 ∧ (frameE3.take 7).length ≠ 8 ∧ (frameE3 ++ [0x00]).length ≠ 8 := by decide

/-- Both sides of the equivalence: D1 folds to 0xFF, eight zero bytes do not. -/
theorem witness_ChecksumValidIffBytesFoldToAllOnes :
    (0xFF#8 ^^^ 0xFF#8 ^^^ 0xFF#8 ^^^ 0xFF#8 ^^^ 0xFF#8 ^^^ 0xFF#8 ^^^ 0xFF#8 = 0xFF#8)
    ∧ ¬ (0#8 ^^^ 0#8 ^^^ 0#8 ^^^ 0#8 ^^^ 0#8 ^^^ 0#8 ^^^ 0#8 = 0xFF#8) := by decide

/-- Fields at their edges, and what decoding E2 gives. -/
theorem witness_FrameRoundTrip :
    15 < 16 ∧ 1023 < 1024 ∧ 0xFFFFFF < 2 ^ 24
    ∧ okResult (exec (.frameDec (wireBytes 15 1023 1023 0xFFFFFF)) State.reset)
        = some (.frame ⟨0xA5, 15, 1023, 1023, 0xFFFFFF, 0x00, true⟩) := by decide

/-- F1 and F8 of 2.4 for one flip, F10 for two. -/
theorem witness_BitFlipsDetectedAndNot :
    flipBit (wireBytes 1 12 15 0x0AFB14) 0 0 = [0x5B, 0xEF, 0xCF, 0xF0, 0xF5, 0x04, 0xEB, 0x35]
    ∧ flipBit (wireBytes 1 12 15 0x0AFB14) 7 7 = [0x5A, 0xEF, 0xCF, 0xF0, 0xF5, 0x04, 0xEB, 0xB5]
    ∧ flipBit (flipBit (wireBytes 1 12 15 0x0AFB14) 6 0) 7 0 = [0x5A, 0xEF, 0xCF, 0xF0, 0xF5, 0x04, 0xEA, 0x34]
    ∧ 6 ≠ 7 ∧ 7 < 8 := by decide

/-- K4 and K5, the two accepted edges; K6 and K7, the nearest raising ones. -/
theorem witness_SensPackConcatenatesBytes :
    (-128 : Int) ≤ -128 ∧ (127 : Int) ≤ 127 ∧ payloadNat 0 (-128) 0 = 0x008000 ∧ payloadNat 0 127 0 = 0x007F00
    ∧ ((-129 : Int) < -128 ∨ (127 : Int) < -129) ∧ ((128 : Int) < -128 ∨ (127 : Int) < 128) := by decide

/-- Both sides of the equivalence at both edges. -/
theorem witness_SensPackRejectsTemperatures :
    ((-129 : Int) < -128 ∨ (127 : Int) < -129) ∧ ((128 : Int) < -128 ∨ (127 : Int) < 128)
    ∧ ¬ ((127 : Int) < -128 ∨ (127 : Int) < 127) ∧ ¬ ((-128 : Int) < -128 ∨ (127 : Int) < -128) := by decide

theorem witness_SensRoundTrip :
    255 < 256 ∧ (-128 : Int) ≤ -128
    ∧ okResult (exec (.sensUnpack 0xFF80FF) State.reset) = some (.readings 255 (-128) 255) := by decide

/-- An unbounded list, and a bounded one with one place left. -/
theorem witness_TdmaAddAppends :
    State.reset.running = false ∧ temp.kind ≠ .unknown
    ∧ (∀ m, State.reset.params.maxSources = some m → State.reset.sources.length < m)
    ∧ ∀ m, ({ capacityTwo with sources := [temp] } : State).params.maxSources = some m → [temp].length < m := by
  refine ⟨rfl, by decide, ?_, ?_⟩ <;> intro m h <;> cases h
  decide

theorem witness_TdmaAddErrorsStateFirst :
    (running .boundary).running = true ∧ stranger.kind = .unknown ∧ capacityTwo.running = false := by decide

theorem witness_TdmaAddRefusedBeyondCapacity :
    capacityTwo.running = false ∧ temp.kind ≠ .unknown ∧ capacityTwo.params.maxSources = some 2
    ∧ 2 ≤ capacityTwo.sources.length ∧ refusalIn (exec (.tdmaAdd temp) capacityTwo) = some .sourceListFull := by decide

theorem witness_TdmaStartEntersRun : stopped.running = false ∧ stopped.sources ≠ [] := by decide

theorem witness_TdmaStartEntryChecks :
    (running .suspend).running = true ∧ State.reset.running = false ∧ State.reset.sources = [] := by decide

theorem witness_TdmaStopRaisesSignal : (running .transmit).running = true ∧ stopped.running = false := by decide

/-- No bound; a bound that is just met; the last bit of the last byte. -/
theorem witness_BpskModMapsBits :
    (∀ m, State.reset.params.maxBytes = some m → frameE3.length ≤ m)
    ∧ (∀ m, maxBytesEight.params.maxBytes = some m → frameE3.length ≤ m) ∧ 7 < frameE3.length := by
  refine ⟨?_, ?_, by decide⟩ <;> intro m h <;> cases h
  decide

theorem witness_BpskModRefusedBeyondMaxBytes :
    maxBytesEight.params.maxBytes = some 8 ∧ 8 < (frameE3 ++ [0x00]).length
    ∧ refusalIn (exec (.bpskMod (frameE3 ++ [0x00])) maxBytesEight) = some .sequenceTooLong := by decide

/-- Each of the three zeros, an empty signal, and a draw count that is free for the sample of C3. -/
theorem witness_ChanApplyZeroNoiseIsIdentity :
    IsZero (.fin 0) ∧ IsZero .negZero ∧ IsZero (.real (.sub (.cos (.rat 1)) (.cos (.rat 1))))
    ∧ okResult (exec (.chanApply [] .negZero) State.reset) = some (.signal [])
    ∧ ∃ n, exec (.chanApply [⟨.fin (3 / 5), .fin (4 / 5)⟩] (.fin 0)) State.reset
        = .next (answer .chanApply (.signal [⟨.fin (3 / 5), .fin (4 / 5)⟩]) (askDraws n (.fin 0) State.reset)) := by
  exact ⟨.inl rfl, .inr (.inl rfl), .inr (.inr ⟨_, cosOne_sub, rfl⟩), by decide, _, rfl⟩

/-- A rational strength and another real one. -/
theorem witness_ChanApplyRotatesThenAdds :
    AboveZero (.fin (1 / 2)) ∧ AboveZero (.real (.cos (.rat 1))) ∧ 0 < [plusOne].length :=
  ⟨.inl ⟨1 / 2, by norm_num, rfl⟩, .inr ⟨.cos (.rat 1), Real.cos 1, ⟨1, by simp [denotes], rfl⟩, Real.cos_one_pos, rfl⟩, by decide⟩

/-- C5 as the statement writes it. -/
theorem witness_ChanApplyAddsOffsetToRealPart :
    (0 : Rat) < 1 / 20
    ∧ ({ State.reset with drawIn := [.fin 0, .fin (-1 / 4)] } : State).params.arith = .exact
    ∧ ({ State.reset with drawIn := [.fin 0, .fin (-1 / 4)] } : State).drawIn
        = [((1 : Rat), (0 : Rat), (-1 / 4 : Rat))].flatMap (fun p => [.fin 0, .fin p.2.2]) := by
  refine ⟨by norm_num, rfl, rfl⟩

theorem witness_ChanApplyRefusesNoise :
    BelowZero (.fin (-1)) ∧ BelowZero (.real (.sub (.rat 3) .pi))
    ∧ [Number.fin (-1), .real (.cos (.rat 2)), .inf true, .inf false, .nan].map (fun x => refusalIn (exec (.chanApply [plusOne] x) State.reset))
        = List.replicate 5 (some .noiseStrengthOutOfDomain) := by
  refine ⟨.inl ⟨-1, by norm_num, rfl⟩, .inr ⟨.sub (.rat 3) .pi, 3 - Real.pi, ⟨3, _, by simp [denotes], rfl, rfl⟩, ?_, rfl⟩, by decide +kernel⟩
  linarith [Real.pi_gt_three]

/-- The last sample of a byte; the two ways of being greater than 0, and values that are not. -/
theorem witness_BpskDemodSlicesAndPacks :
    0 < (demodulate (List.replicate 8 plusOne)).length ∧ 8 * 0 + 7 < (List.replicate 8 plusOne).length
    ∧ AboveZero plusOne.re ∧ AboveZero (.real .pi) ∧ demodulate (List.replicate 8 ⟨.inf false, .nan⟩) = [0xFF]
    ∧ demodulate (List.replicate 8 ⟨.nan, .inf false⟩) = [0x00] := by
  refine ⟨by decide, by decide, .inl ⟨1, by norm_num, rfl⟩, .inr ⟨.pi, Real.pi, rfl, Real.pi_pos, rfl⟩, by decide, by decide⟩

theorem witness_DemodOfModComplements :
    (∀ m, maxBytesEight.params.maxBytes = some m → frameE3.length ≤ m)
    ∧ demodulate (modulate [0xA5]) = [0x5A] := by
  refine ⟨?_, by decide⟩; intro m h; cases h; decide

/-- P1, steps 2 to 6a. -/
theorem witness_PipelineComplementsEveryFrame :
    1 < 16 ∧ 12 < 1024 ∧ 0x0AFB14 < 2 ^ 24 ∧ (∀ m, maxBytesEight.params.maxBytes = some m → 8 ≤ m)
    ∧ demodulate (modulate frameE3) = [0xA5, 0x10, 0x30, 0x0F, 0x0A, 0xFB, 0x14, 0xCA] := by
  refine ⟨by decide, by decide, by decide, ?_, by decide⟩; intro m h; cases h; decide

theorem slotReady_answered : SlotReady (answered .boundary) temp := ⟨rfl, rfl, rfl, rfl, rfl⟩

theorem witness_SlotRunsInOrder :
    SlotReady (answered .boundary) temp ∧ (answered .boundary).sensorIn = .value (-5) :: [.value 10]
    ∧ (answered .boundary).transportIn = .ok :: [.ok] ∧ (answered .boundary).clockIn = 1 + 1
    ∧ buildFrame (answered .boundary).params temp (-5) = some 0x5AEFCFF0FF04FF2B#64 := by
  refine ⟨slotReady_answered, rfl, rfl, rfl, by decide⟩

/-- The second slot of P5, under both values of SUSPEND_ON_TX_FAIL. -/
def failing (suspends : Bool) : State :=
  { running .boundary with slotIdx := 1, sensorIn := [.value 10], transportIn := [.fail], clockIn := 1,
                           params := { Params.default with suspendOnTxFail := suspends } }

theorem witness_FailedTransmitReportedNotRetried (suspends : Bool) :
    SlotReady (failing suspends) occ ∧ (failing suspends).sensorIn = .value 10 :: []
    ∧ (failing suspends).transportIn = .fail :: [] ∧ (failing suspends).clockIn = 0 + 1
    ∧ buildFrame (failing suspends).params occ 10 = some 0x5AEFCFEFF5FFFFC5#64
    ∧ (failing suspends).params.suspendOnTxFail = suspends := by
  refine ⟨⟨rfl, rfl, rfl, rfl, rfl⟩, rfl, rfl, rfl, ?_, rfl⟩
  cases suspends <;> decide

/-- Temperatures at the edges of each clause; an air-quality reading with a known transform (P2: 800 to 100). -/
theorem witness_StandardFrameOfReading :
    Params.default.buildFields = .standard ∧ occ.kind = .occupancy ∧ temp.kind = .temperature
    ∧ (buildFrame Params.default temp (-128)).isSome = true ∧ (buildFrame Params.default temp 127).isSome = true
    ∧ buildFrame Params.default temp (-129) = none ∧ buildFrame Params.default temp 128 = none
    ∧ (buildFrame { Params.default with aqTable := [(800, 100)] } ⟨.airQuality, 1, 4, 7⟩ 800).map frameBytes
        = some [0x5A, 0xEF, 0xFB, 0xFB, 0xFF, 0xFF, 0x9B, 0x8B]
    ∧ Params.default.aqTable.lookup 800 = none := by decide

/-- The first cycle of P5, the second of whose transmits fails, under a value of SUSPEND_ON_TX_FAIL. -/
def cycle (suspends : Bool) : State :=
  { answered .boundary with transportIn := [.ok, .fail], clockIn := if suspends then 2 else 1,
                            params := { Params.default with suspendOnTxFail := suspends } }

/-- The premises, and P5's sums: 1 with a suspension after the failure, a half without. -/
theorem witness_CycleIsFair (suspends : Bool) :
    let s := cycle suspends
    let lost := if s.params.suspendOnTxFail then 0 else [TransportAnswer.ok, .fail].count .fail
    s.running = true ∧ s.stopReq = false ∧ s.slotPhase = .boundary ∧ s.turns = [] ∧ s.slotIdx = 0 ∧ s.sources ≠ []
    ∧ [(-5 : Int), 10].length = s.sources.length ∧ [TransportAnswer.ok, .fail].length = s.sources.length
    ∧ s.sensorIn = [(-5 : Int), 10].map .value ++ [] ∧ s.transportIn = [.ok, .fail] ++ []
    ∧ s.clockIn = s.sources.length - lost + 0
    ∧ (∀ p ∈ s.sources.zip [(-5 : Int), 10], (buildFrame s.params p.1 p.2).isSome = true)
    ∧ s.params.arith = .exact ∧ s.slotDuration = .fin 1
    ∧ (runFor (8 * s.sources.length - 2 * lost) s).map (fun t => ((t.out.filterMap suspendFor).filterMap rationalOf).sum)
        = some (if suspends then 1 else 1 / 2) := by
  cases suspends <;>
    exact ⟨rfl, rfl, rfl, rfl, rfl, by decide, rfl, rfl, rfl, rfl, rfl, by decide, rfl, rfl, by decide +kernel⟩

theorem witness_StopObservedAtBoundary :
    let s : State := withTurn .scheduler { running .boundary with stopReq := true, slotIdx := 1 }
    s.running = true ∧ s.stopReq = true ∧ s.slotPhase = .boundary ∧ SchedulerNext s [] := ⟨rfl, rfl, rfl, .inl rfl⟩

/-- A slot that goes on with a stop pending, and one that an error ends. -/
theorem witness_StopNotObservedInsideSlot :
    (nextOf (step { answered .read with stopReq := true })).map (fun t => (t.running, t.stopReq)) = some (true, true)
    ∧ (nextOf (step { answered .build with stopReq := true, reading := 128 })).map (fun t => (t.running, t.stopReq))
        = some (false, false) := by decide

/-- The stop comes before this slot's transmit, which still begins. -/
theorem witness_AtMostOneTransmitAfterStop :
    let s : State := { answered .build with stopReq := true }
    s.running = true ∧ s.stopReq = true ∧ s.turns = []
    ∧ (runFor 20 s).map (fun t => (t.running, (t.out.filter isTransmit).length)) = some (false, 1) := by decide +kernel

theorem inv_running (p : SlotPhase) : (running p).Inv :=
  ⟨⟨fun _ => by cases p <;> decide, fun _ => by cases p <;> decide, fun h => (nomatch h)⟩,
    ⟨fun h => (nomatch h), fun _ => rfl⟩,
    ⟨by cases p <;> decide, fun _ h => (nomatch h), by cases p <;> decide⟩⟩

theorem inv_stopping (p : SlotPhase) : ({ answered p with stopReq := true } : State).Inv :=
  ⟨⟨fun _ => (inv_running p).run.1 rfl, fun _ => (inv_running p).run.2 rfl, fun _ => rfl⟩,
    ⟨fun h => (nomatch h), fun _ => rfl⟩, ⟨(inv_running p).list.1, (inv_running p).list.2, (inv_running p).list.3⟩⟩

theorem witness_StopEndsRunWithinSlot :
    let s : State := { answered .read with stopReq := true }
    s.Inv ∧ s.running = true ∧ s.stopReq = true ∧ s.turns = [] ∧ s.sensorIn ≠ [] ∧ s.transportIn ≠ [] ∧ 0 < s.clockIn
    ∧ (runFor 8 s).map State.running = some false := by
  exact ⟨inv_stopping .read, rfl, rfl, rfl, by decide, by decide, by decide, by decide +kernel⟩

theorem witness_UnansweredCallStalls :
    ∀ p ∈ [SlotPhase.read, .transmit, .suspend],
      let s : State := { running p with calling := true, stopReq := true }
      s.running = true ∧ s.slotIdx < s.sources.length ∧ s.turns = [] ∧ s.calling = true
      ∧ s.sensorIn = [] ∧ s.transportIn = [] ∧ s.clockIn = 0 := by decide

/-- The two ends of a run by an error: at a turn named, with an earlier fault; and at no turn named. -/
def unbuildable : State :=
  { running .build with reading := 128, faultRecord := some (.buildError 1), turns := [.scheduler] }
def unreadable : State := { running .read with calling := true, sensorIn := [.fails] }

theorem witness_BuildErrorEndsRun :
    unbuildable.running = true ∧ SchedulerNext unbuildable [] ∧ unbuildable.slotPhase = .build
    ∧ unbuildable.sources[unbuildable.slotIdx]? = some temp ∧ buildFrame unbuildable.params temp unbuildable.reading = none
    ∧ unreadable.running = true ∧ SchedulerNext unreadable [] ∧ unreadable.slotPhase = .read ∧ unreadable.calling = true
    ∧ unreadable.sensorIn = .fails :: [] ∧ unreadable.sources[unreadable.slotIdx]? = some temp
    ∧ (nextOf (step unreadable)).map State.out = some [.response .tdmaStart .valueOutOfRange .nothing] :=
  ⟨rfl, .inl rfl, rfl, rfl, by decide, rfl, .inr ⟨rfl, rfl⟩, rfl, rfl, rfl, rfl, by decide⟩

/-- T15 and its like: to the next source, and from the last to the first. -/
theorem witness_IndexAdvancesAndWraps :
    let s (i : Nat) : State := { answered .suspend with slotIdx := i, calling := true }
    (∀ i ∈ [0, 1], (s i).running = true ∧ (s i).slotPhase = .suspend ∧ (s i).calling = true
      ∧ ((s i).turns = [] ∧ ([] : List Turn) = [])
      ∧ (s i).slotIdx < (s i).sources.length ∧ (s i).clockIn = 1 + 1)
    ∧ [0, 1].map (fun i => (nextOf (step (s i))).map State.slotIdx) = [some 1, some 0] := by decide

/-- R202 in both modes. -/
theorem witness_StopLineIsStop :
    (withTurn .stopLine (running .read)).turns = .stopLine :: []
    ∧ (nextOf (step (withTurn .stopLine (running .read)))).map State.stopReq = some true
    ∧ (nextOf (step (withTurn .stopLine stopped))).map State.stopReq = some false := by decide

/-- A budget of 0, the edge of its domain (D25). -/
theorem witness_ResetLinePutsResetValues :
    (withTurn .resetLine stopped).turns = .resetLine :: [] ∧ (withTurn .resetLine stopped).running = false
    ∧ ¬ BudgetRefused (withTurn .resetLine stopped).params.slotDuration
    ∧ (nextOf (step (withTurn .resetLine { stopped with faultRecord := some (.buildError 0) }))).map
        (fun t => (t.sources, t.faultRecord)) = some ([], some (.buildError 0)) := by
  refine ⟨rfl, rfl, ?_, by decide⟩
  rintro ((⟨q, hq, h⟩ | ⟨t, r, -, -, h⟩) | h | h) <;> cases h
  exact absurd hq (by decide)

theorem witness_ResetRefusals :
    (BudgetRefused (.fin (-1)) ∧ BudgetRefused (.inf true) ∧ BudgetRefused .nan) ∧
    refusalIn (step (withTurn .resetLine (running .read))) = some .resetWhileRunning
    ∧ [Number.fin (-1), .nan, .inf true].map (fun d => refusalIn (step (withTurn .resetLine
        { State.reset with params := { Params.default with slotDuration := d } })))
      = List.replicate 3 (some .slotDurationOutOfDomain)
    ∧ refusalIn (construct { Params.default with slotDuration := .fin (-1) }) = some .slotDurationOutOfDomain := by
  exact ⟨⟨.inl (.inl ⟨-1, by norm_num, rfl⟩), .inr (.inl rfl), .inr (.inr rfl)⟩, by decide⟩

theorem witness_InvariantAtReset : (nextOf (construct Params.default)).isSome = true := by decide

theorem witness_StoppedBlockWaits : State.reset.running = false ∧ State.reset.turns = [] := by decide

/-- A step from a state that meets the invariant, in a slot. -/
theorem witness_StepKeepsInvariant : (running .transmit).Inv ∧ (nextOf (step (running .transmit))).isSome = true :=
  ⟨inv_running .transmit, by decide⟩

theorem witness_InvariantExcludesFaults : ({ answered .build with stopReq := true } : State).Inv := inv_stopping .build

theorem witness_SourcesFixedWhileRunning :
    (withTurn (.host [0x04, 0x8F, 0xE0, 0x40, 0x05]) (running .read)).running = true
    ∧ (nextOf (step (withTurn (.host [0x04, 0x8F, 0xE0, 0x40, 0x05]) (running .read)))).map State.sources
        = some [temp, occ] := by decide

/-- The mode is entered by a request, left by a stop, left by an error. -/
theorem witness_ModeChangesOnlyAsStated :
    (nextOf (step (withTurn (.host [0x05, 0x01, 0x02]) stopped))).map State.running = some true
    ∧ (nextOf (step { running .boundary with stopReq := true })).map State.running = some false
    ∧ (nextOf (step { running .read with calling := true, sensorIn := [.fails] })).map State.running = some false := by
  decide

theorem witness_StopSignalHasOneSource :
    (running .build).stopReq = false
    ∧ [Turn.stopLine, .host [0x06]].map (fun t => (nextOf (step (withTurn t (running .build)))).map State.stopReq)
        = [some true, some true] := by decide

/-- Where it was, at the next source, at the first by a START. -/
theorem witness_SlotIndexNeverJumps :
    (nextOf (step { running .build with slotIdx := 1 })).map State.slotIdx = some 1
    ∧ (nextOf (step { answered .suspend with calling := true })).map State.slotIdx = some 1
    ∧ (nextOf (step (withTurn (.host [0x05, 0x00, 0x00]) { stopped with slotIdx := 1 }))).map State.slotIdx = some 0 := by
  decide

/-- A step that leaves the budget, and a reset that takes it from the parameters. -/
theorem witness_SlotDurationFixed :
    (nextOf (step (running .suspend))).map State.slotDuration = some (.fin 1)
    ∧ (nextOf (step (withTurn .resetLine stopped))).map State.slotDuration = some (.fin 0) := by decide

/-- A turn of the scheduler that writes. -/
theorem witness_SchedulerWritesOnlyItsState :
    SchedulerNext (withTurn .scheduler (running .build)) []
    ∧ (nextOf (step (withTurn .scheduler (running .build)))).map State.slotPhase = some .transmit :=
  ⟨.inl rfl, by decide⟩

/-- A second fault after a first. -/
theorem witness_FaultRecordKept :
    (nextOf (step { running .build with reading := 128, faultRecord := some (.sensorReadFailed 1) })).map State.faultRecord
      = some (some (.sensorReadFailed 1)) := by decide

/-- An operation of each kind has a next state. -/
theorem witness_OperationsWriteOnlyTheirState :
    isStateless (Instr.bpskMod [0xA5]).op = true ∧ (Instr.chanApply [] (.fin 0)).op = .chanApply
    ∧ (Instr.tdmaAdd temp).op = .tdmaAdd ∧ (Instr.tdmaStart 1 2).op = .tdmaStart ∧ Instr.tdmaStop.op = .tdmaStop
    ∧ [Instr.frameEnc 1 2 3 4, .frameDec [], .sensPack 1 2 3, .sensUnpack 4, .tdmaAdd temp, .tdmaStart 1 2, .tdmaStop,
        .bpskMod [0xA5], .bpskDemod []].map (fun i => (nextOf (exec i stopped)).isSome) = List.replicate 9 true := by decide

theorem witness_ErrorsWriteNoState :
    (nextOf (exec (.tdmaAdd stranger) stopped)).map State.out
      = some (stopped.out ++ [.response .tdmaAdd .configurationError .nothing])
    ∧ Status.configurationError ≠ .ok := by decide

/-- The same parameters and random source, the scheduler elsewhere. -/
theorem witness_CodecAnswersIgnoreScheduler :
    stopped.params = (running .read).params ∧ stopped.rng = (running .read).rng ∧ stopped.drawIn = (running .read).drawIn
    ∧ okResult (exec (.frameEnc 1 12 15 0x0AFB14) stopped) = some (.bytes frameE3) := by decide

theorem witness_OutputOnlyGrows : (nextOf (step State.reset)).isSome = true := by decide

/-- The edges of the reserved codes, the second under a byte whose high bits are set. -/
theorem witness_ReservedCodesRefused :
    10 ≤ (0x0A#8).toNat % 16 ∧ 10 ≤ (0xFF#8).toNat % 16
    ∧ refusalIn (step (withTurn (.host [0x0A, 0x01]) State.reset)) = some (.reservedOpcode 0xA)
    ∧ refusalIn (step (withTurn (.host [0xFF]) (running .read))) = some (.reservedOpcode 0xF) := by decide

theorem witness_HostTurnRunsDecodedInstruction :
    (withTurn (.host [0x02, 0x14, 0x09, 0x28]) State.reset).turns = .host [0x02, 0x14, 0x09, 0x28] :: []
    ∧ okResult (step (withTurn (.host [0x02, 0x14, 0x09, 0x28]) State.reset)) = some (.data 0x0AFB14)
    ∧ (withTurn .scheduler stopped).turns = .scheduler :: [] := by decide

end Sys2Proof.Tests
end

namespace Sys2Proof.Machine

open Sys2Proof.Statements

/-! What the construction parameters decide for good: every move but the reset line keeps them and the cycle's budget
(spec/92_eei_decisions.md D25). -/

/-- R34: no row of the operations' table lists the budget or the parameters. -/
theorem ExecMove.params_slotDuration {i : Instr} {s t : State} (h : ExecMove s i t) :
    t.params = s.params ∧ t.slotDuration = s.slotDuration := by
  cases h with
  | responds | adds | starts | stops | draws => simp

/-- R34: the row of the slot step lists neither the budget nor the parameters. -/
theorem SchedulerMove.params_slotDuration {s t : State} (h : SchedulerMove s t) :
    t.params = s.params ∧ t.slotDuration = s.slotDuration := by
  cases h with
  | stays | opens | reads | builds | sent => exact ⟨rfl, rfl⟩
  | ends | readFails | buildFails | callsSensor | callsTransport | callsClock | notSent | skips | wakes => simp

/-- Settles O50, over the four kinds of step: the reset line alone writes the budget, from the parameters it keeps. -/
theorem slotDurationFixed : Obligations.SlotDurationFixed := by
  unfold Obligations.SlotDurationFixed
  intro s t h
  cases step_move h with
  | operates request i rest _ turn decoded runs =>
    obtain ⟨hparams, hbudget⟩ := (exec_move runs).params_slotDuration
    exact ⟨hparams, .inl hbudget⟩
  | schedules rest _ turn runs =>
    obtain ⟨hparams, hbudget⟩ := (schedulerTurn_move runs).params_slotDuration
    exact ⟨hparams, .inl hbudget⟩
  | raisesStop rest turn => exact ⟨requestStop_params _, .inl (requestStop_slotDuration _)⟩
  | resets rest turn => exact ⟨resetBlock_params _, .inr ⟨⟨rest, turn⟩, resetBlock_slotDuration _⟩⟩

/-! Which move a step is, by the turn named first (R16). -/

/-- A host turn whose bytes are a request is that request run. -/
theorem step_host {s : State} {b : List Byte} {rest : List Turn} {i : Instr} (turn : s.turns = .host b :: rest)
    (decoded : decodeRequest b = .ok i) : step s = exec i { s with turns := rest } := by
  simp [step, fetch, turn, decoded]

/-- A turn of the scheduler named first is taken from the list, then run. -/
theorem step_scheduler {s : State} {rest : List Turn} (turn : s.turns = .scheduler :: rest) :
    step s = schedulerTurn { s with turns := rest } := by
  simp [step, fetch, turn]

/-- The scheduler's turn, named or not, is one equation: with none named there is no turn to take from the list. -/
theorem step_schedulerNext {s : State} {rest : List Turn} (next : SchedulerNext s rest) :
    step s = schedulerTurn { s with turns := rest } := by
  obtain turn | ⟨noTurns, rfl⟩ := next
  · exact step_scheduler turn
  · have unchanged : { s with turns := [] } = s := by rw [← noTurns]
    rw [unchanged, step_noTurns noTurns]

/-- Settles O60, by the equations of a host turn and of a scheduler turn. -/
theorem hostTurnRunsDecodedInstruction : Obligations.HostTurnRunsDecodedInstruction := by
  unfold Obligations.HostTurnRunsDecodedInstruction
  exact ⟨fun _ _ _ _ => step_host, fun _ _ => step_schedulerNext⟩

end Sys2Proof.Machine

namespace Sys2Proof.Machine

/-! The stop signal inside a slot: it waits there, and only an error of the slot ends the run before a boundary
(R54, R127; spec/92_eei_decisions.md D18). -/

/-- The phases of the error are the two that can raise one: the read that fails and the frame that cannot be built. -/
theorem SchedulerMove.flags_insideSlot {s t : State} (h : SchedulerMove s t) (inside : s.slotPhase ≠ .boundary) :
    (t.running = s.running ∧ t.stopReq = s.stopReq)
    ∨ (t.running = false ∧ t.stopReq = false ∧ (s.slotPhase = .read ∨ s.slotPhase = .build)
        ∧ t.out = s.out ++ [.response .tdmaStart .valueOutOfRange .nothing]) := by
  cases h with
  | ends run stop at_ => exact absurd at_ inside
  | opens run stop at_ => exact absurd at_ inside
  | readFails rest run at_ inp => exact .inr ⟨rfl, rfl, .inl at_, endRunOnFault_out _ _⟩
  | buildFails r run at_ src frame => exact .inr ⟨rfl, rfl, .inr at_, endRunOnFault_out _ _⟩
  | stays | callsSensor | reads | builds | callsTransport | sent | notSent | skips | callsClock | wakes =>
    exact .inl ⟨rfl, rfl⟩

/-- Settles O33, by what a move of the scheduler inside a slot leaves in the two flags. -/
theorem stopNotObservedInsideSlot : Obligations.StopNotObservedInsideSlot := by
  unfold Obligations.StopNotObservedInsideSlot
  intro s t rest running inside next runs
  rw [step_schedulerNext next] at runs
  have flags := (schedulerTurn_move runs).flags_insideSlot inside
  rwa [show ({ s with turns := rest } : State).running = true from running] at flags

end Sys2Proof.Machine

namespace Sys2Proof.Machine

open Sys2Proof.Statements

/-! FrameCodec on natural numbers: the words, the checksum and the bytes of a frame are those the statements write by
shifts and remainders (R44, R61, R63, R65, R90). -/

/-- The statements' `responded` is the model's own answer (R197). -/
theorem answer_eq_responded (op : Op) (r : Result) (s : State) : answer op r s = responded s op .ok r := rfl

/-- The statements' `responded` is also how the model raises an error (R191). -/
theorem raiseError_eq_responded (op : Op) (e : Status) (s : State) :
    raiseError op e s = responded s op e .nothing := rfl

/-- The four fields written as natural numbers. -/
def fieldsOfNat (flag dest src data : Nat) : FieldBits :=
  ⟨BitVec.ofNat 4 flag, BitVec.ofNat 10 dest, BitVec.ofNat 10 src, BitVec.ofNat 24 data⟩

theorem mask_natCast (n v : Nat) : mask n (v : Int) = BitVec.ofNat n v := BitVec.ofInt_natCast n v

/-- The checksum folded over the blob as a number (R65, R90). -/
theorem crc8_toNat (f : FieldBits) :
    (crc8 f).toNat = crcNat f.flag.toNat f.dest.toNat f.src.toNat f.data.toNat := by
  have hblob : (blob f).toNat
      = f.flag.toNat <<< 44 ||| f.dest.toNat <<< 34 ||| f.src.toNat <<< 24 ||| f.data.toNat := by
    simp only [blob, BitVec.toNat_append, Nat.shiftLeft_or_distrib, ← Nat.shiftLeft_add]
  simp only [crc8, crcNat, BitVec.toNat_xor, BitVec.extractLsb'_toNat, hblob, Nat.shiftRight_zero]

theorem word0_toNat (f : FieldBits) :
    (word0 f).toNat = 0xA5 <<< 24 ||| f.flag.toNat <<< 20 ||| f.dest.toNat <<< 10 ||| f.src.toNat := by
  simp only [word0, sfd, BitVec.toNat_append, Nat.shiftLeft_or_distrib, ← Nat.shiftLeft_add, BitVec.toNat_ofNat]

theorem word1_toNat (f : FieldBits) (crc : BitVec 8) : (word1 f crc).toNat = f.data.toNat <<< 8 ||| crc.toNat :=
  BitVec.toNat_append ..

/-- The bytes of an inverted word (R44, R63). -/
theorem wordBytes_wireInvert (w : BitVec 32) : wordBytes (wireInvert w) = invertedBytes w.toNat := by
  simp only [wordBytes, invertedBytes, wireInvert, BitVec.extractLsb', BitVec.toNat_not, Nat.shiftRight_zero]

/-- The wire bytes of any fields (R92). -/
theorem frameBytes_wireFrame (f : FieldBits) :
    frameBytes (wireFrame f) = wireBytes f.flag.toNat f.dest.toNat f.src.toNat f.data.toNat := by
  obtain ⟨first, second⟩ := wireFrame_halves f
  simp only [frameBytes, first, second, wordBytes_wireInvert, word0_toNat, word1_toNat, crc8_toNat, wireBytes]

/-! FRAME.ENC (R92, R93). -/

/-- The operands that fit their fields are those in range (R61, R93). -/
theorem fitsFields_iff (flag dest src data : Int) :
    fitsFields flag dest src data = true ↔ InFields flag dest src data := by
  simp only [fitsFields, InFields, mask_toNat, Bool.and_eq_true, decide_eq_true_eq]
  omega

/-- Operands in range pass the range check of either policy (R93). -/
theorem rangeCheck_of_inFields (p : EncRangePolicy) {flag dest src data : Int} (h : InFields flag dest src data) :
    rangeCheck p flag dest src data = some ⟨mask 4 flag, mask 10 dest, mask 10 src, mask 24 data⟩ := by
  cases p with
  | mask => rfl
  | reject => simp only [rangeCheck, (fitsFields_iff ..).mpr h, if_true]

theorem exec_frameEnc_of_some {flag dest src data : Int} {s : State} {w : BitVec 64}
    (h : frameEncode s.params.encRange flag dest src data = some w) :
    exec (.frameEnc flag dest src data) s = .next (responded s .frameEnc .ok (.bytes (frameBytes w))) := by
  simp only [exec, execFrameEnc, h, answer_eq_responded]

section
variable {flag dest src data : Nat} (hflag : flag < 16) (hdest : dest < 1024) (hsrc : src < 1024) (hdata : data < 2 ^ 24)
include hflag hdest hsrc hdata

theorem fieldsOfNat_toNat :
    (fieldsOfNat flag dest src data).flag.toNat = flag ∧ (fieldsOfNat flag dest src data).dest.toNat = dest
    ∧ (fieldsOfNat flag dest src data).src.toNat = src ∧ (fieldsOfNat flag dest src data).data.toNat = data :=
  ⟨Nat.mod_eq_of_lt hflag, Nat.mod_eq_of_lt hdest, Nat.mod_eq_of_lt hsrc, Nat.mod_eq_of_lt hdata⟩

theorem crc8_fieldsOfNat : crc8 (fieldsOfNat flag dest src data) = BitVec.ofNat 8 (crcNat flag dest src data) := by
  obtain ⟨eflag, edest, esrc, edata⟩ := fieldsOfNat_toNat hflag hdest hsrc hdata
  rw [← BitVec.setWidth_eq (crc8 _), ← BitVec.ofNat_toNat, crc8_toNat, eflag, edest, esrc, edata]

/-- Operands in range are encoded as they are, under either policy (R92, R93). -/
theorem exec_frameEnc_inRange (s : State) :
    exec (.frameEnc flag dest src data) s
      = .next (responded s .frameEnc .ok (.bytes (frameBytes (wireFrame (fieldsOfNat flag dest src data))))) := by
  have inFields : InFields flag dest src data := by unfold InFields; omega
  apply exec_frameEnc_of_some
  simp only [frameEncode, rangeCheck_of_inFields _ inFields, mask_natCast, Option.map_some, fieldsOfNat]

end

/-! FRAME.DEC (R95, R96). -/

theorem exec_frameDec_of_some {b : List Byte} {f : DecodedFrame} (h : frameDecode b = some f) (s : State) :
    exec (.frameDec b) s = .next (responded s .frameDec .ok (.frame f)) := by
  simp only [exec, execFrameDec, h, answer_eq_responded]

theorem exec_frameDec_of_none {b : List Byte} (h : frameDecode b = none) (s : State) :
    exec (.frameDec b) s = .next (responded s .frameDec .invalidFrameLength .nothing) := by
  simp only [exec, execFrameDec, h, raiseError_eq_responded]

/-- Exactly the sequences of 8 bytes are decoded (R95). -/
theorem frameDecode_isSome (b : List Byte) : (frameDecode b).isSome = true ↔ b.length = 8 := by
  constructor
  · fun_cases frameDecode b <;> simp
  · intro h
    match b, h with
    | [_, _, _, _, _, _, _, _], _ => rfl

/-- A field of a word is that of the word as a number (R11). -/
theorem field_eq_ofNat {w : Nat} (x : BitVec w) (lo n : Nat) :
    x.extractLsb' lo n = BitVec.ofNat n (x.toNat / 2 ^ lo % 2 ^ n) := by
  rw [← toNat_field, BitVec.ofNat_toNat, BitVec.setWidth_eq]

/-- The bytes of a word after the inverse transform, as a number (R72). -/
theorem wireInvert_bytes_toNat (a b c d : Byte) :
    (wireInvert (a ++ b ++ c ++ d)).toNat
      = 2 ^ 32 - 1 - (a.toNat * 2 ^ 24 + b.toNat * 2 ^ 16 + c.toNat * 2 ^ 8 + d.toNat) := by
  simp only [wireInvert, BitVec.toNat_not, toNat_append_add]; omega

/-- The verdict compares the numbers of the stored and the recomputed checksum (R96). -/
theorem checksumValid_eq_decide (f : FieldBits) (stored : BitVec 8) :
    checksumValid f stored
      = decide (stored.toNat = crcNat f.flag.toNat f.dest.toNat f.src.toNat f.data.toNat) := by
  rw [checksumValid, ← crc8_toNat, beq_eq_decide, decide_eq_decide, BitVec.toNat_inj]

/-- The two words are read as bit fields on the one side and by quotients on the other; no remainder is needed of the
field on top of a word (R72). -/
theorem decodeHalves_bytes (b0 b1 b2 b3 b4 b5 b6 b7 : Byte) :
    decodeHalves (b0 ++ b1 ++ b2 ++ b3) (b4 ++ b5 ++ b6 ++ b7) = decodedNat b0 b1 b2 b3 b4 b5 b6 b7 := by
  simp only [decodedNat, ← wireInvert_bytes_toNat]
  unfold decodeHalves
  generalize wireInvert (b0 ++ b1 ++ b2 ++ b3) = w0, wireInvert (b4 ++ b5 ++ b6 ++ b7) = w1
  have first : w0.toNat / 2 ^ 24 % 2 ^ 8 = w0.toNat / 2 ^ 24 := Nat.mod_eq_of_lt (by omega)
  have last : w1.toNat / 2 ^ 8 % 2 ^ 24 = w1.toNat / 2 ^ 8 := Nat.mod_eq_of_lt (by omega)
  simp only [field_eq_ofNat, checksumValid_eq_decide, BitVec.toNat_ofNat, Nat.mod_mod, first, last, Nat.pow_zero,
    Nat.div_one]
  rfl

/-- Settles O7: FRAME.DEC of the wire bytes of fields gives those fields back, and these are the operands. -/
theorem frameRoundTrip : Obligations.FrameRoundTrip := by
  unfold Obligations.FrameRoundTrip
  intro s t flag dest src data hflag hdest hsrc hdata
  refine ⟨_, exec_frameEnc_inRange hflag hdest hsrc hdata s, rfl, ?_⟩
  rw [exec_frameDec_of_some (frameDecode_wireFrame _), crc8_fieldsOfNat hflag hdest hsrc hdata]
  rfl

/-- Settles O1, by the wire bytes of any fields at the fields that the operands are. -/
theorem frameEncAnswersInvertedWords : Obligations.FrameEncAnswersInvertedWords := by
  unfold Obligations.FrameEncAnswersInvertedWords
  intro s flag dest src data hflag hdest hsrc hdata
  obtain ⟨eflag, edest, esrc, edata⟩ := fieldsOfNat_toNat hflag hdest hsrc hdata
  rw [exec_frameEnc_inRange hflag hdest hsrc hdata, frameBytes_wireFrame, eflag, edest, esrc, edata]

/-- Settles O4: eight bytes are two words, whose fields are those of the numbers they are. -/
theorem frameDecExtractsFields : Obligations.FrameDecExtractsFields := by
  unfold Obligations.FrameDecExtractsFields
  intro s b0 b1 b2 b3 b4 b5 b6 b7
  rw [← decodeHalves_bytes]
  exact exec_frameDec_of_some rfl s

/-- Settles O3, by the lengths that FRAME.DEC decodes. -/
theorem frameDecRaisesOnOtherLengths : Obligations.FrameDecRaisesOnOtherLengths := by
  unfold Obligations.FrameDecRaisesOnOtherLengths
  intro s b
  refine ⟨fun other => ?_, fun eight => ?_⟩
  · exact exec_frameDec_of_none (by simpa [← frameDecode_isSome] using other) s
  · obtain ⟨f, decoded⟩ := Option.isSome_iff_exists.mp ((frameDecode_isSome b).mpr eight)
    exact ⟨f, exec_frameDec_of_some decoded s⟩

end Sys2Proof.Machine

namespace Sys2Proof.Machine

open Sys2Proof.Statements

/-! SensorFrameCodec: a payload and its three bytes, the middle one signed (R66, R71). -/

/-- The payload of three reduced operands is the number the statements write by shifts and remainders (R66, R110). -/
theorem payload_mask (nb t aq : Int) :
    payload (mask 8 nb) (mask 8 t) (mask 8 aq) = BitVec.ofNat 24 (payloadNat nb t aq) := by
  have reduced (v : Int) : (mask 8 v).toNat = (v % 256).toNat := BitVec.toNat_ofInt v
  have number : (payload (mask 8 nb) (mask 8 t) (mask 8 aq)).toNat = payloadNat nb t aq := by
    simp only [payload, payloadNat, BitVec.toNat_append, reduced, Nat.shiftLeft_or_distrib, ← Nat.shiftLeft_add]
  rw [← number, BitVec.ofNat_toNat, BitVec.setWidth_eq]

/-- The bytes of a payload put together again are the payload (R66). -/
theorem payload_fields (d : BitVec 24) :
    payload (d.extractLsb' 16 8) (d.extractLsb' 8 8) (d.extractLsb' 0 8) = d := by
  apply BitVec.eq_of_toNat_eq
  simp only [payload, toNat_append_add, toNat_field]
  omega

/-- The readings of a payload are its three bytes (R112). -/
theorem sensUnpack_payload (nb t aq : BitVec 8) : sensUnpack (payload nb t aq) = .readings nb (sext8 t) aq := by
  have high : (payload nb t aq).extractLsb' 16 8 = nb := by
    apply BitVec.eq_of_toNat_eq; simp only [payload, toNat_field, toNat_append_add]; omega
  have middle : (payload nb t aq).extractLsb' 8 8 = t := by
    apply BitVec.eq_of_toNat_eq; simp only [payload, toNat_field, toNat_append_add]; omega
  have low : (payload nb t aq).extractLsb' 0 8 = aq := by
    apply BitVec.eq_of_toNat_eq; simp only [payload, toNat_field, toNat_append_add]; omega
  simp only [sensUnpack, high, middle, low]

/-- A signed byte is a temperature SENS.PACK accepts (R71, R111). -/
theorem sext8_bounds (b : BitVec 8) : -128 ≤ sext8 b ∧ sext8 b ≤ 127 := by
  unfold sext8
  split <;> omega

/-- A temperature SENS.PACK accepts is read back from its reduced byte (R70, R71). -/
theorem sext8_mask {t : Int} (cold : -128 ≤ t) (hot : t ≤ 127) : sext8 (mask 8 t) = t := by
  have reduced := mask_toNat 8 t
  unfold sext8
  split <;> omega

/-- Reducing a signed byte gives the byte (R70, R71). -/
theorem mask_sext8 (b : BitVec 8) : mask 8 (sext8 b) = b := by
  apply BitVec.eq_of_toNat_eq
  have reduced := mask_toNat 8 (sext8 b)
  have residue : sext8 b % 256 = b.toNat := by
    unfold sext8
    split <;> omega
  omega

/-- A word as an operand of its own width is not changed by reducing it (R70). -/
theorem mask_toNat_self {n : Nat} (d : BitVec n) : mask n (d.toNat : Int) = d := by
  rw [mask_natCast, BitVec.ofNat_toNat, BitVec.setWidth_eq]

/-! SENS.PACK (R110, R111) and SENS.UNPACK (R112). -/

theorem temperatureInRange_iff (t : Int) : temperatureInRange t = true ↔ -128 ≤ t ∧ t ≤ 127 := by
  simp only [temperatureInRange, Bool.and_eq_true, decide_eq_true_eq]

theorem exec_sensPack_inRange (nb aq : Int) {t : Int} (cold : -128 ≤ t) (hot : t ≤ 127) (s : State) :
    exec (.sensPack nb t aq) s
      = .next (responded s .sensPack .ok (.data (payload (mask 8 nb) (mask 8 t) (mask 8 aq)))) := by
  have accepted := (temperatureInRange_iff t).mpr ⟨cold, hot⟩
  simp only [exec, execSensPack, sensPack, accepted, if_true, answer_eq_responded]

theorem exec_sensPack_outOfRange (nb aq : Int) {t : Int} (out : t < -128 ∨ 127 < t) (s : State) :
    exec (.sensPack nb t aq) s = .next (responded s .sensPack .valueOutOfRange .nothing) := by
  have rejected : ¬ temperatureInRange t = true := by rw [temperatureInRange_iff]; omega
  simp only [exec, execSensPack, sensPack, if_neg rejected, raiseError_eq_responded]

theorem exec_sensUnpack (data : Int) (s : State) :
    exec (.sensUnpack data) s = .next (responded s .sensUnpack .ok (sensUnpack (mask 24 data))) := rfl

/-- Two responses of one block to one operation are the same state only when they carry the same (R197). -/
theorem responded_inj {s : State} {op : Op} {e e' : Status} {r r' : Result}
    (h : responded s op e r = responded s op e' r') : e = e' ∧ r = r' := by
  have out : s.out ++ [Output.response op e r] = s.out ++ [Output.response op e' r'] := congrArg State.out h
  simpa using out

/-- Settles O9, by what SENS.PACK answers on either side of the range and the payload as a number. -/
theorem sensPackConcatenatesBytes : Obligations.SensPackConcatenatesBytes := by
  unfold Obligations.SensPackConcatenatesBytes
  intro s nb t aq
  refine ⟨fun cold hot => ?_, fun out => exec_sensPack_outOfRange nb aq out s⟩
  rw [exec_sensPack_inRange nb aq cold hot, payload_mask]

/-- Settles O10: in range the status of the response is another one. -/
theorem sensPackRejectsTemperatures : Obligations.SensPackRejectsTemperatures := by
  unfold Obligations.SensPackRejectsTemperatures
  intro s nb t aq
  refine ⟨fun raises => ?_, fun out => exec_sensPack_outOfRange nb aq out s⟩
  by_contra inRange
  rw [exec_sensPack_inRange nb aq (by omega) (by omega)] at raises
  obtain ⟨status, -⟩ := responded_inj (Host.Outcome.next.inj raises)
  cases status

/-- Settles O11: the bytes of the reduced operand are its quotients and remainders, and no remainder is needed of the
highest one. -/
theorem sensUnpackReadsBytes : Obligations.SensUnpackReadsBytes := by
  unfold Obligations.SensUnpackReadsBytes
  intro s data d b
  have fits : d < 2 ^ 24 := by omega
  have word : (mask 24 data).toNat = d := BitVec.toNat_ofInt data
  have high : (mask 24 data).extractLsb' 16 8 = BitVec.ofNat 8 (d / 65536) := by
    rw [field_eq_ofNat, word, Nat.mod_eq_of_lt (by omega)]
    rfl
  have low : (mask 24 data).extractLsb' 0 8 = BitVec.ofNat 8 (d % 256) := by
    rw [field_eq_ofNat, word, Nat.pow_zero, Nat.div_one]
    rfl
  have middle : sext8 ((mask 24 data).extractLsb' 8 8) = if 128 ≤ b then (b : Int) - 256 else (b : Int) := by
    rw [sext8, toNat_field, word]
    split <;> split <;> omega
  rw [exec_sensUnpack, sensUnpack, high, middle, low]

/-- Settles O12: a payload and its bytes determine each other, a temperature in range and its byte do, and 259 and 3
have one byte. -/
theorem sensRoundTrip : Obligations.SensRoundTrip := by
  unfold Obligations.SensRoundTrip
  refine ⟨fun s u nb aq t _ _ cold hot => ?_, fun s u d => ?_, fun s => ?_⟩
  · refine ⟨_, exec_sensPack_inRange nb aq cold hot s, ?_⟩
    rw [exec_sensUnpack, mask_toNat_self, sensUnpack_payload, sext8_mask cold hot, mask_natCast, mask_natCast]
  · obtain ⟨cold, hot⟩ := sext8_bounds (d.extractLsb' 8 8)
    refine ⟨d.extractLsb' 16 8, d.extractLsb' 0 8, sext8 (d.extractLsb' 8 8), ?_, ?_⟩
    · rw [exec_sensUnpack, mask_toNat_self, sensUnpack]
    · rw [exec_sensPack_inRange _ _ cold hot, mask_toNat_self, mask_toNat_self, mask_sext8, payload_fields]
  · have alike : mask 8 259 = mask 8 3 := by decide
    rw [exec_sensPack_inRange _ _ (by decide) (by decide), exec_sensPack_inRange _ _ (by decide) (by decide), alike]

end Sys2Proof.Machine

namespace Sys2Proof.Machine

/-! The turns of a running scheduler, one equation a turn that has an effect (R126 to R131, R135), and a run of turns put
together from them. -/

/-- At a boundary a pending stop is observed, and nothing else is looked at (R127). -/
theorem turn_ends {s : State} (run : s.running = true) (stop : s.stopReq = true) (at_ : s.slotPhase = .boundary) :
    schedulerTurn s = .next (endRun .ok s) := by
  simp [schedulerTurn, observesStop, run, stop, at_]

section
variable {s : State} {r : SourceRecord} {v : Int} {w : BitVec 64} {sensors : List SensorAnswer}
  {transports : List TransportAnswer} {c : Nat} (run : s.running = true) (src : s.sources[s.slotIdx]? = some r)
include run src

/-- A turn that observes no stop is the phase's, for the slot's source. -/
theorem turn_ofPhase (unseen : observesStop s = false) : schedulerTurn s = slotPhaseStep r s := by
  simp [schedulerTurn, run, unseen, src]

theorem turn_insideSlot (inside : s.slotPhase ≠ .boundary) : schedulerTurn s = slotPhaseStep r s :=
  turn_ofPhase run src (by simp [observesStop, inside])

theorem turn_opens (noStop : s.stopReq = false) (at_ : s.slotPhase = .boundary) :
    schedulerTurn s = .next { s with slotPhase := .read, calling := false } := by
  rw [turn_ofPhase run src (by simp [observesStop, noStop])]
  simp only [slotPhaseStep, at_]

theorem turn_callsSensor (at_ : s.slotPhase = .read) (idle : s.calling = false) :
    schedulerTurn s = .next (emit (.sensorRead s.slotIdx r.port) { s with calling := true }) := by
  rw [turn_insideSlot run src (by simp [at_])]
  simp [slotPhaseStep, at_, readPhase, idle]

theorem turn_reads (at_ : s.slotPhase = .read) (called : s.calling = true)
    (inp : s.sensorIn = .value v :: sensors) :
    schedulerTurn s = .next { s with sensorIn := sensors, reading := v, calling := false, slotPhase := .build } := by
  rw [turn_insideSlot run src (by simp [at_])]
  simp only [slotPhaseStep, at_, readPhase, called, inp, if_true]

theorem turn_readFails (at_ : s.slotPhase = .read) (called : s.calling = true)
    (inp : s.sensorIn = .fails :: sensors) :
    schedulerTurn s = .next (endRunOnFault (.sensorReadFailed s.slotIdx) { s with sensorIn := sensors }) := by
  rw [turn_insideSlot run src (by simp [at_])]
  simp only [slotPhaseStep, at_, readPhase, called, inp, if_true]

theorem turn_builds (at_ : s.slotPhase = .build) (frame : buildFrame s.params r s.reading = some w) :
    schedulerTurn s = .next { s with txFrame := w, txWritten := true, calling := false, slotPhase := .transmit } := by
  rw [turn_insideSlot run src (by simp [at_])]
  simp only [slotPhaseStep, at_, buildPhase, frame]

theorem turn_buildFails (at_ : s.slotPhase = .build) (noFrame : buildFrame s.params r s.reading = none) :
    schedulerTurn s = .next (endRunOnFault (.buildError s.slotIdx) s) := by
  rw [turn_insideSlot run src (by simp [at_])]
  simp only [slotPhaseStep, at_, buildPhase, noFrame]

theorem turn_callsTransport (at_ : s.slotPhase = .transmit) (idle : s.calling = false) (written : s.txWritten = true) :
    schedulerTurn s = .next (emit (.transmit s.transport (frameBytes s.txFrame)) { s with calling := true }) := by
  rw [turn_insideSlot run src (by simp [at_])]
  simp [slotPhaseStep, at_, transmitPhase, idle, written]

theorem turn_sent (at_ : s.slotPhase = .transmit) (called : s.calling = true)
    (inp : s.transportIn = .ok :: transports) :
    schedulerTurn s = .next { s with transportIn := transports, calling := false, slotPhase := .suspend } := by
  rw [turn_insideSlot run src (by simp [at_])]
  simp only [slotPhaseStep, at_, transmitPhase, called, inp, if_true]

theorem turn_notSent (at_ : s.slotPhase = .transmit) (called : s.calling = true)
    (inp : s.transportIn = .fail :: transports) (suspends : s.params.suspendOnTxFail = true) :
    schedulerTurn s = .next
      { emit (.event .transportFailure s.slotIdx) { s with transportIn := transports, calling := false } with
        slotPhase := .suspend } := by
  rw [turn_insideSlot run src (by simp [at_])]
  simp only [slotPhaseStep, at_, transmitPhase, called, inp, if_true, emit_params, suspends]

theorem turn_skips (at_ : s.slotPhase = .transmit) (called : s.calling = true)
    (inp : s.transportIn = .fail :: transports) (skips : s.params.suspendOnTxFail = false) :
    schedulerTurn s = .next
      (advance (emit (.event .transportFailure s.slotIdx) { s with transportIn := transports, calling := false })) := by
  rw [turn_insideSlot run src (by simp [at_])]
  simp [slotPhaseStep, at_, transmitPhase, called, inp, skips]

theorem turn_callsClock (at_ : s.slotPhase = .suspend) (idle : s.calling = false) :
    schedulerTurn s = .next
      (emit (.suspend s.clock (numberDivNat s.params.arith s.slotDuration s.sources.length))
        { s with calling := true }) := by
  rw [turn_insideSlot run src (by simp [at_])]
  simp [slotPhaseStep, at_, suspendPhase, idle]

theorem turn_wakes (at_ : s.slotPhase = .suspend) (called : s.calling = true) (inp : s.clockIn = c + 1) :
    schedulerTurn s = .next (advance { s with clockIn := c }) := by
  rw [turn_insideSlot run src (by simp [at_])]
  simp only [slotPhaseStep, at_, suspendPhase, called, inp, if_true]

end

/-- A scheduler left to itself runs on from the state its turn leaves. -/
theorem run_turn {n : Nat} {s t u : State} (noTurns : s.turns = []) (turn : schedulerTurn s = .next t)
    (goesOn : Host.Core.run Sys2Proof.core n t = .next u) : Host.Core.run Sys2Proof.core (n + 1) s = .next u := by
  rw [run_succ, step_noTurns noTurns, turn]
  exact goesOn

/-- A run goes on from the state a shorter one leaves. -/
theorem run_add {m n : Nat} {s t u : State} (first : Host.Core.run Sys2Proof.core m s = .next t)
    (goesOn : Host.Core.run Sys2Proof.core n t = .next u) : Host.Core.run Sys2Proof.core (m + n) s = .next u := by
  induction m generalizing s with
  | zero => rwa [Nat.zero_add, Host.Outcome.next.inj first]
  | succ m ih =>
    rw [Nat.succ_add, run_succ]
    rw [run_succ] at first
    split at first
    · exact ih first
    · cases first
    · cases first

/-- Settles O32, by the one turn that observes the stop. -/
theorem stopObservedAtBoundary : Obligations.StopObservedAtBoundary := by
  unfold Obligations.StopObservedAtBoundary
  intro s rest run stop at_ next
  have ends : schedulerTurn { s with turns := rest } = .next (endRun .ok { s with turns := rest }) :=
    turn_ends run stop at_
  rw [step_schedulerNext next, ends, at_]
  rfl

end Sys2Proof.Machine

namespace Sys2Proof.Machine

open Sys2Proof.Statements

/-! One slot of a scheduler left to itself (R126, R129, R130). -/

/-- The suspensions of a slot by the answer its transmit gets: one, but none after a failure where SUSPEND_ON_TX_FAIL is
false (R129, D24). -/
def suspensions (p : Params) : TransportAnswer → Nat
  | .ok => 1
  | .fail => if p.suspendOnTxFail then 1 else 0

/-- The event of a slot by the answer its transmit gets (R187). -/
def transmitReport (slot : Nat) : TransportAnswer → List Output
  | .ok => []
  | .fail => [.event .transportFailure slot]

/-- What a slot puts on the ports after its transmit has begun. -/
def closingOutputs (s : State) (a : TransportAnswer) : List Output :=
  transmitReport s.slotIdx a ++ List.replicate (suspensions s.params a)
    (.suspend s.clock (numberDivNat s.params.arith s.slotDuration s.sources.length))

/-- What a whole slot puts on the ports: its source is read and the frame `w` transmitted, then the slot is closed. -/
def slotOutputs (s : State) (r : SourceRecord) (w : BitVec 64) (a : TransportAnswer) : List Output :=
  .sensorRead s.slotIdx r.port :: .transmit s.transport (frameBytes w) :: closingOutputs s a

/-- From a boundary to the transmit begun, which takes nothing of the transport's answer. -/
theorem run_toTransmit {s : State} {r : SourceRecord} {v : Int} {w : BitVec 64} {sensors : List SensorAnswer}
    (ready : SlotReady s r) (value : s.sensorIn = .value v :: sensors) (frame : buildFrame s.params r v = some w) :
    Host.Core.run Sys2Proof.core 5 s
      = .next { s with sensorIn := sensors, reading := v, txFrame := w, txWritten := true, slotPhase := .transmit,
                       calling := true,
                       out := s.out ++ [.sensorRead s.slotIdx r.port, .transmit s.transport (frameBytes w)] } := by
  obtain ⟨run, noStop, at_, noTurns, src⟩ := ready
  refine run_turn noTurns (turn_opens run src noStop at_) ?_
  refine run_turn noTurns (turn_callsSensor run src rfl rfl) ?_
  refine run_turn noTurns (turn_reads run src rfl rfl value) ?_
  refine run_turn noTurns (turn_builds run src rfl frame) ?_
  refine run_turn noTurns (turn_callsTransport run src rfl rfl rfl) ?_
  simp [emit]

section
variable {s : State} {r : SourceRecord} {a : TransportAnswer} {transports : List TransportAnswer} {c : Nat}
  (run : s.running = true) (noTurns : s.turns = []) (src : s.sources[s.slotIdx]? = some r)
include run noTurns src

theorem run_suspension (at_ : s.slotPhase = .suspend) (idle : s.calling = false) (clock : s.clockIn = c + 1) :
    Host.Core.run Sys2Proof.core 2 s
      = .next (advance (emit (.suspend s.clock (numberDivNat s.params.arith s.slotDuration s.sources.length))
          { s with clockIn := c })) := by
  refine run_turn noTurns (turn_callsClock run src at_ idle) ?_
  exact run_turn noTurns (turn_wakes run src at_ rfl clock) rfl

/-- From the transmit begun to the next boundary, whatever the transport answers (R129, R130, R131). -/
theorem run_fromTransmit (at_ : s.slotPhase = .transmit) (called : s.calling = true)
    (answered : s.transportIn = a :: transports) (clock : s.clockIn = suspensions s.params a + c) :
    Host.Core.run Sys2Proof.core (2 * suspensions s.params a + 1) s
      = .next (advance { s with transportIn := transports, clockIn := c, out := s.out ++ closingOutputs s a }) := by
  have sleeps (wait : suspensions s.params a = 1) : s.clockIn = c + 1 := by omega
  cases a with
  | ok =>
    refine run_turn noTurns (turn_sent run src at_ called answered) ?_
    exact Eq.trans (run_suspension run noTurns src rfl rfl (sleeps rfl)) rfl
  | fail =>
    cases suspends : s.params.suspendOnTxFail with
    | true =>
      have wait : suspensions s.params .fail = 1 := by simp [suspensions, suspends]
      rw [wait]
      refine run_turn noTurns (turn_notSent run src at_ called answered suspends) ?_
      refine Eq.trans (run_suspension run noTurns src rfl rfl (sleeps wait)) ?_
      simp [emit, advance, closingOutputs, transmitReport, wait]
    | false =>
      have noWait : suspensions s.params .fail = 0 := by simp [suspensions, suspends]
      have kept : s.clockIn = c := by omega
      rw [noWait]
      refine run_turn noTurns (turn_skips run src at_ called answered suspends) ?_
      simp [emit, advance, closingOutputs, transmitReport, noWait, kept]

end

/-- A whole slot, whatever the transport answers. -/
theorem run_slot {s : State} {r : SourceRecord} {v : Int} {w : BitVec 64} {a : TransportAnswer}
    {sensors : List SensorAnswer} {transports : List TransportAnswer} {c : Nat} (ready : SlotReady s r)
    (value : s.sensorIn = .value v :: sensors) (answered : s.transportIn = a :: transports)
    (clock : s.clockIn = suspensions s.params a + c) (frame : buildFrame s.params r v = some w) :
    Host.Core.run Sys2Proof.core (5 + (2 * suspensions s.params a + 1)) s
      = .next { s with sensorIn := sensors, transportIn := transports, clockIn := c, reading := v, txFrame := w,
                       txWritten := true, calling := false, slotIdx := (s.slotIdx + 1) % s.sources.length,
                       out := s.out ++ slotOutputs s r w a } := by
  refine run_add (m := 5) (run_toTransmit ready value frame) ?_
  refine Eq.trans (run_fromTransmit ready.running ready.noTurns ready.source rfl rfl answered clock) ?_
  simp [advance, slotOutputs, closingOutputs, ready.atBoundary]

/-- Settles O28: it is a slot whose transmit succeeds. -/
theorem slotRunsInOrder : Obligations.SlotRunsInOrder := by
  unfold Obligations.SlotRunsInOrder
  intro s r v w sensors transports c ready value answered clock frame
  exact run_slot ready value answered (clock.trans (Nat.add_comm c 1)) frame

end Sys2Proof.Machine

namespace Sys2Proof.Machine

open Sys2Proof.Statements

/-! A cycle of slots (R130, R131, R133): the slots from a position of the list to its end, whatever the transport
answers. -/

/-- The suspensions of slots whose transmits get these answers. -/
def suspensionsOf (p : Params) (as : List TransportAnswer) : Nat := (as.map (suspensions p)).sum

/-- Six turns a slot and two a suspension, of the first slot and the slots after it. -/
theorem cycle_turns_cons (p : Params) (a : TransportAnswer) (as : List TransportAnswer) :
    6 * (a :: as).length + 2 * suspensionsOf p (a :: as)
      = 5 + (2 * suspensions p a + 1) + (6 * as.length + 2 * suspensionsOf p as) := by
  simp only [suspensionsOf, List.map_cons, List.sum_cons, List.length_cons]
  omega

/-- What is left out of one suspension a slot is what SUSPEND_ON_TX_FAIL = false leaves out of the failed ones (D24). -/
theorem suspensionsOf_add_lost (p : Params) (as : List TransportAnswer) :
    suspensionsOf p as + (if p.suspendOnTxFail then 0 else as.count .fail) = as.length := by
  cases always : p.suspendOnTxFail with
  | true =>
    have one (a : TransportAnswer) : suspensions p a = 1 := by cases a <;> simp [suspensions, always]
    simp [suspensionsOf, funext one]
  | false =>
    simp only [suspensionsOf, Bool.false_eq_true, if_false]
    induction as with
    | nil => rfl
    | cons a as ih =>
      rw [List.map_cons, List.sum_cons, List.count_cons, List.length_cons, ← ih]
      cases a with
      | ok => simp [suspensions]; omega
      | fail => simp [suspensions, always]; omega

/-- A scheduler left to itself at the boundary before source `k`, with a reading that can be built for every source from
there on, an answer to each transmit and an end of each suspension. -/
structure ServesFrom (s : State) (k : Nat) (vs : List Int) (as : List TransportAnswer) : Prop where
  running : s.running = true
  noStop : s.stopReq = false
  atBoundary : s.slotPhase = .boundary
  noTurns : s.turns = []
  index : s.slotIdx = k % s.sources.length
  served : k + as.length = s.sources.length
  readings : ∃ rest, s.sensorIn = vs.map .value ++ rest
  answers : ∃ rest, s.transportIn = as ++ rest
  wakes : ∃ c, s.clockIn = suspensionsOf s.params as + c
  frames : List.Forall₂ (fun r v => (buildFrame s.params r v).isSome = true) (s.sources.drop k) vs

/-- What the slots from source `k` on put on the ports when their transmits get these answers and a suspension is of
`d`. -/
structure SlotsOutputs (p : Params) (d : Number) (k : Nat) (as : List TransportAnswer) (outs : List Output) : Prop where
  transmits : (outs.filter isTransmit).length = as.length
  reads : outs.filterMap readSlot = List.range' k as.length
  suspends : outs.filterMap suspendFor = List.replicate (suspensionsOf p as) d

theorem slotsOutputs_nil (p : Params) (d : Number) (k : Nat) : SlotsOutputs p d k [] [] := ⟨rfl, rfl, rfl⟩

/-- A slot is itself a cycle of one: one transmission, one read and its suspensions. -/
theorem slotsOutputs_one (s : State) (r : SourceRecord) (w : BitVec 64) (a : TransportAnswer) :
    SlotsOutputs s.params (numberDivNat s.params.arith s.slotDuration s.sources.length) s.slotIdx [a]
      (slotOutputs s r w a) := by
  constructor
  · cases a <;> simp [slotOutputs, closingOutputs, transmitReport, isTransmit, List.filter_cons]
  · cases a <;> simp [slotOutputs, closingOutputs, transmitReport, readSlot, List.filterMap_cons]
  · cases a <;> simp [slotOutputs, closingOutputs, transmitReport, suspendFor, suspensionsOf, List.filterMap_cons,
      List.filterMap_replicate]

/-- The outputs of one slot before those of the slots after it. -/
theorem SlotsOutputs.cons {p : Params} {d : Number} {k : Nat} {a : TransportAnswer} {as : List TransportAnswer}
    {first later : List Output} (one : SlotsOutputs p d k [a] first) (rest : SlotsOutputs p d (k + 1) as later) :
    SlotsOutputs p d k (a :: as) (first ++ later) := by
  constructor
  · rw [List.filter_append, List.length_append, one.transmits, rest.transmits, List.length_cons, Nat.add_comm]
    rfl
  · rw [List.filterMap_append, one.reads, rest.reads]
    rfl
  · rw [List.filterMap_append, one.suspends, rest.suspends, List.replicate_append_replicate]
    rfl

/-- The first of the slots is one slot left to itself, and the others follow from the state it leaves. -/
theorem ServesFrom.slot {s : State} {k : Nat} {vs : List Int} {a : TransportAnswer} {as : List TransportAnswer}
    (h : ServesFrom s k vs (a :: as)) :
    ∃ (t : State) (r : SourceRecord) (w : BitVec 64) (vs' : List Int),
      Host.Core.run Sys2Proof.core (5 + (2 * suspensions s.params a + 1)) s = .next t
      ∧ t.out = s.out ++ slotOutputs s r w a ∧ s.slotIdx = k ∧ ServesFrom t (k + 1) vs' as
      ∧ t.sources = s.sources ∧ t.params = s.params ∧ t.slotDuration = s.slotDuration := by
  obtain ⟨run, noStop, at_, noTurns, index, served, ⟨sensors, readings⟩, ⟨transports, answers⟩, ⟨c, wakes⟩, frames⟩ := h
  rw [List.length_cons] at served
  have inRange : k < s.sources.length := by omega
  have here : s.slotIdx = k := by rw [index, Nat.mod_eq_of_lt inRange]
  rw [List.drop_eq_getElem_cons inRange] at frames
  obtain ⟨v, vs', builds, frames', rfl⟩ := List.forall₂_cons_left_iff.mp frames
  obtain ⟨w, frame⟩ := Option.isSome_iff_exists.mp builds
  have source : s.sources[s.slotIdx]? = some s.sources[k] := by rw [here, List.getElem?_eq_getElem inRange]
  have clock : s.clockIn = suspensions s.params a + (suspensionsOf s.params as + c) := by
    rw [wakes, suspensionsOf, List.map_cons, List.sum_cons, Nat.add_assoc, suspensionsOf]
  refine ⟨_, _, w, vs', run_slot ⟨run, noStop, at_, noTurns, source⟩ readings answers clock frame, rfl, here, ?_, rfl,
    rfl, rfl⟩
  exact {
    running := run, noStop := noStop, atBoundary := at_, noTurns := noTurns
    index := by rw [here], served := by rw [← served]; omega
    readings := ⟨sensors, rfl⟩, answers := ⟨transports, rfl⟩, wakes := ⟨c, rfl⟩, frames := frames' }

/-- The slots from source `k` to the end of the list, by induction on the answers their transmits get. -/
theorem run_slots {s : State} {k : Nat} {vs : List Int} {as : List TransportAnswer} (h : ServesFrom s k vs as) :
    ∃ (t : State) (outs : List Output),
      Host.Core.run Sys2Proof.core (6 * as.length + 2 * suspensionsOf s.params as) s = .next t
      ∧ t.out = s.out ++ outs
      ∧ SlotsOutputs s.params (numberDivNat s.params.arith s.slotDuration s.sources.length) k as outs
      ∧ t.slotIdx = 0 ∧ t.slotPhase = .boundary ∧ t.running = true ∧ t.sources = s.sources := by
  induction as generalizing s k vs with
  | nil =>
    have wrapped : s.slotIdx = 0 := by rw [h.index, ← h.served, List.length_nil, Nat.add_zero, Nat.mod_self]
    exact ⟨s, [], rfl, (List.append_nil _).symm, slotsOutputs_nil _ _ _, wrapped, h.atBoundary, h.running, rfl⟩
  | cons a as ih =>
    obtain ⟨t, r, w, vs', first, out, rfl, after, sources, params, duration⟩ := h.slot
    obtain ⟨u, outs, later, outLater, outputs, index, at_, run, sourcesLater⟩ := ih after
    rw [params] at later
    rw [params, duration, sources] at outputs
    refine ⟨u, slotOutputs s r w a ++ outs, ?_, ?_, (slotsOutputs_one s r w a).cons outputs, index, at_, run,
      sourcesLater.trans sources⟩
    · rw [cycle_turns_cons]
      exact run_add first later
    · rw [outLater, out, List.append_assoc]

/-- The suspensions of exact arithmetic sum to a product over the reals (R130). -/
theorem sum_rationalOf_replicate (m : Nat) (q : Rat) :
    ((List.replicate m (Number.fin q)).filterMap rationalOf).sum = m * q := by
  simp [rationalOf, List.filterMap_replicate]

/-- Settles O31, by the slots from the first source on. -/
theorem cycleIsFair : Obligations.CycleIsFair := by
  unfold Obligations.CycleIsFair
  intro s vs sensors as transports c n lost run noStop at_ noTurns index nonempty vsLength asLength readings answers clock
    frames
  have total : suspensionsOf s.params as + lost = n := (suspensionsOf_add_lost s.params as).trans asLength
  have suspended : suspensionsOf s.params as = n - lost := by omega
  have fromFirst : ServesFrom s 0 vs as := {
    running := run, noStop := noStop, atBoundary := at_, noTurns := noTurns
    index := by rw [index, Nat.zero_mod], served := by rw [Nat.zero_add, asLength]
    readings := ⟨sensors, readings⟩, answers := ⟨transports, answers⟩, wakes := ⟨c, by rw [suspended, clock]⟩
    frames := List.forall₂_iff_zip.mpr ⟨vsLength.symm, fun pair => frames _ pair⟩ }
  obtain ⟨t, outs, runs, out, ⟨transmits, reads, suspends⟩, last⟩ := run_slots fromFirst
  have turns : 6 * as.length + 2 * suspensionsOf s.params as = 8 * n - 2 * lost := by omega
  rw [turns] at runs
  rw [suspended] at suspends
  refine ⟨t, outs, runs, out, transmits.trans asLength, ?_, suspends, fun d exact_ budget => ?_, last⟩
  · rw [reads, asLength, List.range_eq_range']
  · have positive : (n : Rat) ≠ 0 := by simpa [n] using nonempty
    have count : ((n - lost : Nat) : Rat) = n - lost := Nat.cast_sub (by omega)
    rw [suspends, exact_, budget, numberDivNat_fin, sum_rationalOf_replicate, count]
    change ((n : Rat) - lost) * (d / n) = d - lost * (d / n)
    rw [sub_mul, mul_div_cancel₀ d positive]

end Sys2Proof.Machine

namespace Sys2Proof.Machine

/-! The end of a run once a stop is pending (R127, R137): the scheduler is at most so many turns from it, and where every
call left in the slot has an answer ready no turn leaves that number as it is. -/

/-- The turns from a point of a slot to the end of a run in which a stop is pending. -/
def turnsLeft (s : State) : Nat :=
  match s.slotPhase, s.calling with
  | .boundary, _ => 1
  | .suspend, true => 2
  | .suspend, false => 3
  | .transmit, true => 4
  | .transmit, false => 5
  | .build, _ => 6
  | .read, true => 7
  | .read, false => 8

theorem turnsLeft_bounds (s : State) : 0 < turnsLeft s ∧ turnsLeft s ≤ 8 := by
  unfold turnsLeft
  split <;> decide

/-- From a phase on, every call of the slot has an answer ready, and a transmit has its frame. -/
def answersReady (s : State) : SlotPhase → Prop
  | .boundary => True
  | .read => s.sensorIn ≠ [] ∧ s.transportIn ≠ [] ∧ 0 < s.clockIn
  | .build => s.transportIn ≠ [] ∧ 0 < s.clockIn
  | .transmit => s.txWritten = true ∧ s.transportIn ≠ [] ∧ 0 < s.clockIn
  | .suspend => 0 < s.clockIn

/-- A stop is pending in a scheduler left to itself, with an answer ready for every call left in the slot. -/
structure Stopping (s : State) : Prop where
  running : s.running = true
  stop : s.stopReq = true
  noTurns : s.turns = []
  inRange : s.slotIdx < s.sources.length
  ready : answersReady s s.slotPhase

/-- The slot after this one is of a source as well (R131). -/
theorem Stopping.advance_inRange {s : State} (h : Stopping s) : (advance s).slotIdx < s.sources.length :=
  Nat.mod_lt _ (Nat.zero_lt_of_lt h.inRange)

/-- The next turn ends the run or brings its end nearer. -/
def Nears (s : State) : Prop :=
  ∃ t, schedulerTurn s = .next t ∧ (t.running = false ∨ Stopping t ∧ turnsLeft t < turnsLeft s)

theorem Stopping.nears_read {s : State} (h : Stopping s) (phase : s.slotPhase = .read) : Nears s := by
  obtain ⟨run, stop, noTurns, inRange, ready⟩ := h
  have src := List.getElem?_eq_getElem inRange
  cases called : s.calling with
  | false =>
    refine ⟨_, turn_callsSensor run src phase called, .inr ⟨⟨run, stop, noTurns, inRange, ready⟩, ?_⟩⟩
    simp [turnsLeft, phase, called]
  | true =>
    rw [phase] at ready
    obtain ⟨sensor, transport, clock⟩ := ready
    match answer : s.sensorIn, sensor with
    | .value v :: sensors, _ =>
      refine ⟨_, turn_reads run src phase called answer, .inr ⟨⟨run, stop, noTurns, inRange, transport, clock⟩, ?_⟩⟩
      simp [turnsLeft, phase, called]
    | .fails :: sensors, _ => exact ⟨_, turn_readFails run src phase called answer, .inl rfl⟩

theorem Stopping.nears_build {s : State} (h : Stopping s) (phase : s.slotPhase = .build) : Nears s := by
  obtain ⟨run, stop, noTurns, inRange, ready⟩ := h
  have src := List.getElem?_eq_getElem inRange
  rw [phase] at ready
  obtain ⟨transport, clock⟩ := ready
  cases frame : buildFrame s.params s.sources[s.slotIdx] s.reading with
  | none => exact ⟨_, turn_buildFails run src phase frame, .inl rfl⟩
  | some w =>
    refine ⟨_, turn_builds run src phase frame, .inr ⟨⟨run, stop, noTurns, inRange, rfl, transport, clock⟩, ?_⟩⟩
    simp [turnsLeft, phase]

theorem Stopping.nears_transmit {s : State} (h : Stopping s) (phase : s.slotPhase = .transmit) : Nears s := by
  have next := h.advance_inRange
  obtain ⟨run, stop, noTurns, inRange, ready⟩ := h
  have src := List.getElem?_eq_getElem inRange
  have answers := ready
  rw [phase] at answers
  obtain ⟨written, transport, clock⟩ := answers
  cases called : s.calling with
  | false =>
    refine ⟨_, turn_callsTransport run src phase called written, .inr ⟨⟨run, stop, noTurns, inRange, ready⟩, ?_⟩⟩
    simp [turnsLeft, phase, called]
  | true =>
    match answer : s.transportIn, transport with
    | .ok :: transports, _ =>
      refine ⟨_, turn_sent run src phase called answer, .inr ⟨⟨run, stop, noTurns, inRange, clock⟩, ?_⟩⟩
      simp [turnsLeft, phase, called]
    | .fail :: transports, _ =>
      cases suspends : s.params.suspendOnTxFail with
      | true =>
        refine ⟨_, turn_notSent run src phase called answer suspends, .inr ⟨⟨run, stop, noTurns, inRange, clock⟩, ?_⟩⟩
        simp [turnsLeft, phase, called]
      | false =>
        refine ⟨_, turn_skips run src phase called answer suspends, .inr ⟨⟨run, stop, noTurns, next, trivial⟩, ?_⟩⟩
        simp [turnsLeft, phase, called]

theorem Stopping.nears_suspend {s : State} (h : Stopping s) (phase : s.slotPhase = .suspend) : Nears s := by
  have next := h.advance_inRange
  obtain ⟨run, stop, noTurns, inRange, ready⟩ := h
  have src := List.getElem?_eq_getElem inRange
  cases called : s.calling with
  | false =>
    refine ⟨_, turn_callsClock run src phase called, .inr ⟨⟨run, stop, noTurns, inRange, ready⟩, ?_⟩⟩
    simp [turnsLeft, phase, called]
  | true =>
    rw [phase] at ready
    obtain ⟨c, left⟩ := Nat.exists_eq_add_one_of_ne_zero (Nat.ne_of_gt ready)
    refine ⟨_, turn_wakes run src phase called left, .inr ⟨⟨run, stop, noTurns, next, trivial⟩, ?_⟩⟩
    simp [turnsLeft, phase, called]

theorem Stopping.nears {s : State} (h : Stopping s) : Nears s := by
  cases phase : s.slotPhase with
  | boundary => exact ⟨_, turn_ends h.running h.stop phase, .inl rfl⟩
  | read => exact h.nears_read phase
  | build => exact h.nears_build phase
  | transmit => exact h.nears_transmit phase
  | suspend => exact h.nears_suspend phase

/-- The run ends within the turns left, by induction on a bound of them. -/
theorem Stopping.ends {s : State} {n : Nat} (h : Stopping s) (bound : turnsLeft s ≤ n) :
    ∃ m ≤ n, ∃ t, Host.Core.run Sys2Proof.core m s = .next t ∧ t.running = false := by
  induction n generalizing s with
  | zero => exact absurd (turnsLeft_bounds s).1 (by omega)
  | succ n ih =>
    obtain ⟨t, turn, ended | ⟨later, nearer⟩⟩ := h.nears
    · exact ⟨1, Nat.le_add_left 1 n, t, run_turn h.noTurns turn rfl, ended⟩
    · obtain ⟨m, le, u, runs, ended⟩ := ih later (by omega)
      exact ⟨m + 1, Nat.succ_le_succ le, u, run_turn h.noTurns turn runs, ended⟩

/-- Settles O35: by the invariant the scheduler has a source to serve and the frame of a transmit is built. -/
theorem stopEndsRunWithinSlot : Obligations.StopEndsRunWithinSlot := by
  unfold Obligations.StopEndsRunWithinSlot
  intro s inv run stop noTurns sensor transport clock
  have ready : answersReady s s.slotPhase := by
    cases phase : s.slotPhase with
    | boundary => trivial
    | read => exact ⟨sensor, transport, clock⟩
    | build => exact ⟨transport, clock⟩
    | transmit => exact ⟨inv.slot.builtBeforeTransmit phase, transport, clock⟩
    | suspend => exact clock
  obtain ⟨m, le, t, ends⟩ := Stopping.ends ⟨run, stop, noTurns, inv.run.idxInRange run, ready⟩ (turnsLeft_bounds s).2
  exact ⟨m, t, le, ends⟩

end Sys2Proof.Machine

namespace Sys2Proof.Machine

open Sys2Proof.Statements

/-! BPSK.MOD (R150): its answer is `modulate`, on the sequences that MAX_BYTES admits. -/

/-- The length check by the bound it is of, if there is one (R41, D14). -/
theorem fitsMaxBytes_iff (s : State) (bytes : List Byte) :
    fitsMaxBytes s bytes = true ↔ ∀ m, s.params.maxBytes = some m → bytes.length ≤ m := by
  unfold fitsMaxBytes
  split
  case h_1 m bound => simp [bound]
  case h_2 unbounded => simp [unbounded]

/-- BPSK.MOD of a sequence it takes (R150). -/
theorem exec_bpskMod_of_fits {s : State} {bytes : List Byte} (fits : fitsMaxBytes s bytes = true) :
    exec (.bpskMod bytes) s = .next (responded s .bpskMod .ok (.signal (modulate bytes))) := by
  simp only [exec, execBpskMod, fits, if_true, answer_eq_responded]

/-- Settles O19, by the length and the samples of the modulated sequence. -/
theorem bpskModMapsBits : Obligations.BpskModMapsBits := by
  unfold Obligations.BpskModMapsBits
  intro s b withinBound
  have fits : fitsMaxBytes s b = true := (fitsMaxBytes_iff s b).mpr withinBound
  exact ⟨modulate b, exec_bpskMod_of_fits fits, modulate_length b, modulate_getElem b⟩

end Sys2Proof.Machine

namespace Sys2Proof.Machine

open Sys2Proof.Statements

/-! CHAN.APPLY (R160 to R167): which noise strengths it refuses, passes the signal through at, and draws at; then what
it answers of each. -/

/-- A real above 0 is a noise strength, and not zero noise (R160). -/
theorem isNoise_of_aboveZero {x : Number} (h : AboveZero x) : noiseInDomain x = true ∧ numberIsZero x = false := by
  obtain ⟨q, positive, rfl⟩ | ⟨t, r, is, positive, rfl⟩ := h
  · simp [positive.le, positive.ne']
  · simp [(realSign_eq_gt is).mpr positive]

/-- Every form of zero is zero noise (R162). -/
theorem isZeroNoise_of_isZero {x : Number} (h : IsZero x) : noiseInDomain x = true ∧ numberIsZero x = true := by
  obtain rfl | rfl | ⟨t, is, rfl⟩ := h
  · simp
  · exact ⟨rfl, rfl⟩
  · simp [(realSign_eq_eq is).mpr rfl]

/-- A real below 0 is no noise strength (R164). -/
theorem notNoise_of_belowZero {x : Number} (h : BelowZero x) : noiseInDomain x = false := by
  obtain ⟨q, negative, rfl⟩ | ⟨t, r, is, negative, rfl⟩ := h
  · simp [negative]
  · simp [(realSign_eq_lt is).mpr negative]

/-- CHAN.APPLY outside the noise strength's domain (R164, D12). -/
theorem exec_chanApply_outOfDomain {noise : Number} (out : noiseInDomain noise = false) (sig : List Sample) (s : State) :
    exec (.chanApply sig noise) s = .refused .noiseStrengthOutOfDomain := by
  simp only [exec, execChanApply, out, if_true]

/-- CHAN.APPLY at zero noise (R162, D11). -/
theorem exec_chanApply_zeroNoise {noise : Number} (zero : IsZero noise) (sig : List Sample) (s : State) :
    exec (.chanApply sig noise) s
      = .next (answer .chanApply (.signal sig) (askDraws (zeroNoiseDraws s sig) noise s)) := by
  obtain ⟨domain, isZero⟩ := isZeroNoise_of_isZero zero
  simp [exec, execChanApply, domain, isZero]

/-- CHAN.APPLY above zero noise answers what the channel makes of the signal, after two draws a sample (R160, R166). -/
theorem exec_chanApply_noisy {noise : Number} (above : AboveZero noise) {sig ys : List Sample} {s : State}
    (made : channel noise sig s = (ys, askDraws (2 * sig.length) noise s)) :
    exec (.chanApply sig noise) s
      = .next (answer .chanApply (.signal ys) (askDraws (2 * sig.length) noise s)) := by
  obtain ⟨domain, notZero⟩ := isNoise_of_aboveZero above
  simp [exec, execChanApply, domain, notZero, made]

/-- Settles O22: the channel takes each sample on its own, and the draws it asks for are those the statement counts. -/
theorem chanApplyRotatesThenAdds : Obligations.ChanApplyRotatesThenAdds := by
  unfold Obligations.ChanApplyRotatesThenAdds
  intro s sig noise above
  obtain ⟨ys, made, sameLength, samples⟩ := channel_eq noise sig s
  exact ⟨ys, exec_chanApply_noisy above made, sameLength, samples⟩

/-! A phase of 0 over the reals (R160's example). -/

/-- Rotation by 0 leaves a sample as it is, so all that happens to it is the offset on its real component. -/
theorem perturb_zeroPhase (x y offset : Rat) :
    perturb .exact ⟨.fin x, .fin y⟩ (.fin 0) (.fin offset) = ⟨.fin (x + offset), .fin y⟩ := by
  simp [perturb]

/-- The first sample gets the next two draws, the others those after them (R166). -/
theorem channel_cons (noise : Number) (x : Sample) (xs : List Sample) (s : State) :
    (channel noise (x :: xs) s).1
      = perturb s.params.arith x (drawAt noise s 0) (drawAt noise s 1) :: (channel noise xs (askDraws 2 noise s)).1 := by
  simp [channel, drawNormal_eq, askDraws_askDraws]

/-- The signal after the channel where every phase drawn is 0, by induction on its samples and their offsets. -/
theorem channel_zeroPhases (noise : Number) {points : List (Rat × Rat × Rat)} {s : State}
    (exact_ : s.params.arith = .exact) (drawn : s.drawIn = points.flatMap fun p => [.fin 0, .fin p.2.2]) :
    (channel noise (points.map fun p => ⟨.fin p.1, .fin p.2.1⟩) s).1
      = points.map fun p => ⟨.fin (p.1 + p.2.2), .fin p.2.1⟩ := by
  induction points generalizing s with
  | nil => rfl
  | cons p points ih =>
    have phase : drawAt noise s 0 = .fin 0 := by simp [drawAt, drawn]
    have offset : drawAt noise s 1 = .fin p.2.2 := by simp [drawAt, drawn]
    have later : (askDraws 2 noise s).drawIn = points.flatMap fun p => [.fin 0, .fin p.2.2] := by simp [drawn]
    rw [List.map_cons, channel_cons, exact_, phase, offset, perturb_zeroPhase, ih (s := askDraws 2 noise s) exact_ later,
      List.map_cons]

/-- Settles O23: rotation by 0 changes nothing, and the draws asked for are exactly those that were fixed. -/
theorem chanApplyAddsOffsetToRealPart : Obligations.ChanApplyAddsOffsetToRealPart := by
  unfold Obligations.ChanApplyAddsOffsetToRealPart
  intro s points q positive exact_ drawn
  obtain ⟨ys, made, -, -⟩ := channel_eq (.fin q) (points.map fun p => ⟨.fin p.1, .fin p.2.1⟩) s
  obtain rfl := (congrArg Prod.fst made).symm.trans (channel_zeroPhases (.fin q) exact_ drawn)
  have allTaken : s.drawIn.drop (2 * points.length) = [] :=
    List.drop_eq_nil_of_le (by simp [drawn, List.length_flatMap, Nat.mul_comm])
  rw [exec_chanApply_noisy (.inl ⟨q, positive, rfl⟩) made, List.length_map, ← allTaken]
  rfl

/-- Settles O21: the count of draws is the one left open, which is 0 of an empty signal. -/
theorem chanApplyZeroNoiseIsIdentity : Obligations.ChanApplyZeroNoiseIsIdentity := by
  unfold Obligations.ChanApplyZeroNoiseIsIdentity
  intro s sig noise zero
  have noneIfEmpty : sig = [] → zeroNoiseDraws s sig = 0 := by rintro rfl; rfl
  exact ⟨zeroNoiseDraws s sig, noneIfEmpty, exec_chanApply_zeroNoise zero sig s⟩

/-- Settles O24: none of the strengths named lies in the domain. -/
theorem chanApplyRefusesNoise : Obligations.ChanApplyRefusesNoise := by
  unfold Obligations.ChanApplyRefusesNoise
  intro s sig noise outside
  apply exec_chanApply_outOfDomain
  obtain below | ⟨negative, rfl⟩ | rfl := outside
  · exact notNoise_of_belowZero below
  · rfl
  · rfl

end Sys2Proof.Machine

namespace Sys2Proof.Machine

open Sys2Proof.Statements

/-! BPSK.DEMOD (R170 to R173): the comparison behind each bit, where the bits stand, and the polarity. -/

/-- What the demodulator's comparison holds of: a real above 0 in either form, and positive infinity (R171, D13, G4). -/
theorem numberPositive_iff (x : Number) : numberPositive x = true ↔ AboveZero x ∨ x = .inf false := by
  cases x with
  | fin q => simp [AboveZero]
  | real t =>
    obtain ⟨r, is⟩ := denotes_exists t
    have above : AboveZero (.real t) ↔ 0 < r := by
      refine ⟨?_, fun positive => .inr ⟨t, r, is, positive, rfl⟩⟩
      rintro (⟨q, -, ⟨⟩⟩ | ⟨t, r', is', positive, ⟨⟩⟩)
      rwa [denotes_unique is is']
    simp [above, realSign_eq_gt is]
  | inf negative => cases negative <;> simp [AboveZero, numberPositive, numberSign]
  | negZero | nan => simp [AboveZero, numberPositive, numberSign]

/-- Bit `8j + k` is bit `7 - k` of packed byte `j` (R45, R172), by the recursion of the packing. -/
theorem packBits_getElem {bits : List Bool} {j k : Nat} (hj : j < (packBits bits).length) (hk : k < 8) :
    bits[8 * j + k]? = some ((packBits bits)[j].getLsbD (7 - k)) := by
  induction bits using packBits.induct generalizing j with
  | case1 b7 b6 b5 b4 b3 b2 b1 b0 rest ih =>
    cases j with
    | zero =>
      have packed := byteOfBits_getLsbD b7 b6 b5 b4 b3 b2 b1 b0 k hk
      rw [Nat.mul_zero, Nat.zero_add]
      exact (List.getElem?_append_left (l₂ := rest) hk).trans packed
    | succ j =>
      rw [show 8 * (j + 1) + k = 8 * j + k + 8 by omega]
      exact ih (Nat.lt_of_succ_lt_succ hj)
  | case2 bits short => simp [packBits] at hj

/-- BPSK.DEMOD of any signal (R170). -/
theorem exec_bpskDemod (sig : List Sample) (s : State) :
    exec (.bpskDemod sig) s = .next (responded s .bpskDemod .ok (.bytes (demodulate sig))) := rfl

/-- Settles O25: bit `8j + k` is the comparison of sample `8j + k`, and the packing puts it where the statement says. -/
theorem bpskDemodSlicesAndPacks : Obligations.BpskDemodSlicesAndPacks := by
  unfold Obligations.BpskDemodSlicesAndPacks
  intro s sig
  refine ⟨demodulate sig, exec_bpskDemod sig s, ?_, fun j k hj hk inByte => ?_⟩
  · rw [demodulate, packBits_length, List.length_map]
  · have packed := packBits_getElem hj inByte
    rw [List.getElem?_map, List.getElem?_eq_getElem hk, Option.map_some, Option.some_inj] at packed
    rw [← numberPositive_iff, ← sampleBit, packed]
    rfl

/-- The demodulator makes of a modulated sequence the complement of every byte (R173). -/
theorem demodulate_modulate (bytes : List Byte) : demodulate (modulate bytes) = bytes.map fun x => ~~~x := by
  induction bytes with
  | nil => rfl
  | cons b bytes ih =>
    have decided : ((byteBits b).map bitSample).map sampleBit = byteBits (~~~b) := by
      rw [← byteBits_not, List.map_map]
      exact List.map_congr_left fun bit _ => sampleBit_bitSample bit
    rw [demodulate, modulate_cons, List.map_append, decided, packBits_byteBits, ← demodulate, ih, List.map_cons]

/-- Settles O26: the modulated sequence passes the channel as it is, and its bits are decided as their complements. -/
theorem demodOfModComplements : Obligations.DemodOfModComplements := by
  unfold Obligations.DemodOfModComplements
  intro s t u b withinBound
  refine ⟨modulate b, _, exec_bpskMod_of_fits ((fitsMaxBytes_iff s b).mpr withinBound),
    exec_chanApply_zeroNoise (.inl rfl) (modulate b) u, ⟨zeroNoiseDraws u (modulate b), rfl⟩, ?_⟩
  rw [exec_bpskDemod, demodulate_modulate]

end Sys2Proof.Machine

namespace Sys2Proof.Machine

/-! The complement of a frame (R174): FRAME.DEC reads the complement of every field, while the recomputed checksum stays
as it was (R91 (b)), so the verdict turns. -/

/-- A field of a complement is the complement of the field. -/
theorem extractLsb'_not {w lo n : Nat} (x : BitVec w) (within : lo + n ≤ w) :
    (~~~x).extractLsb' lo n = ~~~(x.extractLsb' lo n) := by
  ext i hi
  have inside : lo + i < w := by omega
  simp [inside]

/-- The complement of every field. -/
def FieldBits.complement (f : FieldBits) : FieldBits := ⟨~~~f.flag, ~~~f.dest, ~~~f.src, ~~~f.data⟩

/-- The checksum folds an even number of bytes, so complementing them all leaves it (R91 (b)). -/
theorem crc8_complement (f : FieldBits) : crc8 f.complement = crc8 f := by
  have complemented : blob f.complement = ~~~(blob f) := by
    have parts : ~~~(f.flag ++ f.dest ++ f.src ++ f.data) = ~~~f.flag ++ ~~~f.dest ++ ~~~f.src ++ ~~~f.data := by
      simp only [BitVec.not_append]
    exact parts.symm
  have byte (lo : Nat) (within : lo + 8 ≤ 48) :
      (blob f.complement).extractLsb' lo 8 = ~~~((blob f).extractLsb' lo 8) := by
    rw [complemented, extractLsb'_not _ within]
  simp only [crc8, byte, Nat.reduceAdd, Nat.reduceLeDiff, ← BitVec.not_xor_left, ← BitVec.not_xor_right, BitVec.not_not]

/-- The complement of a checksum is another one, so the verdict on a complemented frame is false (R174). -/
theorem checksumValid_complement (f : FieldBits) : checksumValid f.complement (~~~(crc8 f)) = false := by
  rw [checksumValid, crc8_complement]
  generalize crc8 f = c
  revert c; decide

/-- FRAME.DEC of complemented halves reads complemented fields (R63, R72). -/
theorem decodeHalves_wireInvert {i0 i1 : BitVec 32} {f : FieldBits} {delimiter crc : BitVec 8} {verdict : Bool}
    (plain : decodeHalves i0 i1 = ⟨delimiter, f.flag, f.dest, f.src, f.data, crc, verdict⟩) :
    decodeHalves (wireInvert i0) (wireInvert i1)
      = ⟨~~~delimiter, ~~~f.flag, ~~~f.dest, ~~~f.src, ~~~f.data, ~~~crc, checksumValid f.complement (~~~crc)⟩ := by
  simp only [decodeHalves, DecodedFrame.mk.injEq] at plain
  obtain ⟨hdelimiter, hflag, hdest, hsrc, hdata, hcrc, -⟩ := plain
  simp [decodeHalves, wireInvert, FieldBits.complement, extractLsb'_not, ← hdelimiter, ← hflag, ← hdest, ← hsrc, ← hdata,
    ← hcrc]

/-- The bytes of complemented wire bits (R44, R47). -/
theorem frameBytes_not (w : BitVec 64) : (frameBytes w).map (fun x => ~~~x) = frameBytes (~~~w) := by
  simp [frameBytes, wordBytes, extractLsb'_not]

/-- FRAME.DEC of the complement of a frame's wire bytes (R174). -/
theorem frameDecode_wireFrame_not (f : FieldBits) :
    frameDecode ((frameBytes (wireFrame f)).map fun x => ~~~x)
      = some ⟨~~~sfd, ~~~f.flag, ~~~f.dest, ~~~f.src, ~~~f.data, ~~~(crc8 f), false⟩ := by
  obtain ⟨first, second⟩ := wireFrame_halves f
  have decoded := decodeHalves_wireInvert (f := f) (decodeHalves_wire f (crc8 f))
  rw [checksumValid_complement] at decoded
  rw [frameBytes_not, frameDecode_frameBytes, extractLsb'_not _ (by decide), extractLsb'_not _ (by decide), first, second]
  exact congrArg some decoded

/-- Settles O27: the pipeline complements the eight wire bytes as it does any sequence, and FRAME.DEC reads the
complemented frame and the frame itself. -/
theorem pipelineComplementsEveryFrame : Obligations.PipelineComplementsEveryFrame := by
  unfold Obligations.PipelineComplementsEveryFrame
  intro s1 s2 s3 s4 s5 flag dest src data hflag hdest hsrc hdata withinBound
  have crc := crc8_fieldsOfNat hflag hdest hsrc hdata
  obtain ⟨sig, t3, modulated, passed, asked, demodulated⟩ :=
    demodOfModComplements s2 s4 s3 (frameBytes (wireFrame (fieldsOfNat flag dest src data))) withinBound
  refine ⟨_, sig, t3, exec_frameEnc_inRange hflag hdest hsrc hdata s1, modulated, passed, asked, demodulated, ?_, ?_⟩
  · rw [exec_frameDec_of_some (frameDecode_wireFrame_not _), crc]
    rfl
  · rw [exec_frameDec_of_some (frameDecode_wireFrame _), crc]
    rfl

end Sys2Proof.Machine

namespace Sys2Proof.Machine

/-! The stop signal: a turn of the scheduler never raises it, and of the operations TDMA.STOP alone does, while running
(spec/60_exceptions.md R189; spec/42_tdma_scheduler.md R132). -/

/-- R125, R132: TDMA.START clears the signal, TDMA.STOP writes it, and no other operation does. -/
theorem ExecMove.stop_of_stopReq_raised {i : Instr} {s t : State} (h : ExecMove s i t) (low : s.stopReq = false)
    (raised : t.stopReq = true) : s.running = true ∧ i = .tdmaStop := by
  cases h with
  | stops => exact ⟨by simpa [low] using raised, rfl⟩
  | responds | adds | starts | draws => simp [low] at raised

/-- R127, R135: an end of the run clears the signal, and every other turn of the scheduler leaves it. -/
theorem SchedulerMove.stopReq_low {s t : State} (h : SchedulerMove s t) (low : s.stopReq = false) :
    t.stopReq = false := by
  cases h with
  | ends | readFails | buildFails => rfl
  | stays | opens | callsSensor | reads | builds | callsTransport | sent | notSent | skips | callsClock | wakes =>
    exact low

/-- Settles O48, over the four kinds of step: only a request and the stop line can raise the signal. -/
theorem stopSignalHasOneSource : Obligations.StopSignalHasOneSource := by
  unfold Obligations.StopSignalHasOneSource
  intro s t h low raised
  cases step_move h with
  | operates request i rest _ turn decoded runs =>
    obtain ⟨running, rfl⟩ := (exec_move runs).stop_of_stopReq_raised low raised
    exact ⟨running, .inr ⟨request, rest, turn, decoded⟩⟩
  | schedules rest _ turn runs =>
    have stays := (schedulerTurn_move runs).stopReq_low low
    simp [stays] at raised
  | raisesStop rest turn => exact ⟨by simpa [low] using raised, .inl ⟨rest, turn⟩⟩
  | resets rest turn => simp at raised

end Sys2Proof.Machine

namespace Sys2Proof.Machine

/-! A turn while a call begun is not answered (R137; notes/assumptions/14.md): none of the three calls is given up, and
nothing but its answer ends it. -/

section
variable {s : State} {r : SourceRecord} (run : s.running = true) (src : s.sources[s.slotIdx]? = some r)
  (called : s.calling = true)
include run src called

theorem turn_awaitsSensor (at_ : s.slotPhase = .read) (unanswered : s.sensorIn = []) : schedulerTurn s = .next s := by
  rw [turn_insideSlot run src (by simp [at_])]
  simp only [slotPhaseStep, at_, readPhase, called, unanswered, if_true]

theorem turn_awaitsTransport (at_ : s.slotPhase = .transmit) (unanswered : s.transportIn = []) :
    schedulerTurn s = .next s := by
  rw [turn_insideSlot run src (by simp [at_])]
  simp only [slotPhaseStep, at_, transmitPhase, called, unanswered, if_true]

theorem turn_awaitsClock (at_ : s.slotPhase = .suspend) (unanswered : s.clockIn = 0) : schedulerTurn s = .next s := by
  rw [turn_insideSlot run src (by simp [at_])]
  simp only [slotPhaseStep, at_, suspendPhase, called, unanswered, if_true]

end

/-- A state its own step leaves is where a run of any length ends. -/
theorem run_of_step_stays {s : State} (stays : step s = .next s) (n : Nat) :
    Host.Core.run Sys2Proof.core n s = .next s := by
  induction n with
  | zero => exact run_zero s
  | succ n ih =>
    rw [run_succ, stays]
    exact ih

/-- Settles O36: whichever of the three calls is unanswered, the scheduler's turn leaves the state as it is, and no other
turn is named. -/
theorem unansweredCallStalls : Obligations.UnansweredCallStalls := by
  unfold Obligations.UnansweredCallStalls
  intro s n run inRange noTurns called waiting
  have src : s.sources[s.slotIdx]? = some s.sources[s.slotIdx] := List.getElem?_eq_getElem inRange
  have stays : schedulerTurn s = .next s := by
    obtain ⟨at_, unanswered⟩ | ⟨at_, unanswered⟩ | ⟨at_, unanswered⟩ := waiting
    · exact turn_awaitsSensor run src called at_ unanswered
    · exact turn_awaitsTransport run src called at_ unanswered
    · exact turn_awaitsClock run src called at_ unanswered
  exact run_of_step_stays ((step_noTurns noTurns).trans stays) n

end Sys2Proof.Machine

namespace Sys2Proof.Machine

/-! Requests (R75; notes/assumptions/19.md): what the encoder writes, the decoder reads back. -/

/-- Operands are read back, whatever bytes follow them. -/
theorem getOperands_putOperands (i : Instr) (rest : List Byte) :
    getOperands i.op (putOperands i ++ rest) = .ok (i, rest) := by
  cases i with
  | frameEnc flag dest src data => simp [getOperands, putOperands, Instr.op]
  | frameDec bytes => simp [getOperands, putOperands, Instr.op, getSeq_putSeq _ _ getByte_cons]
  | sensPack nb t aq => simp [getOperands, putOperands, Instr.op]
  | sensUnpack data => simp [getOperands, putOperands, Instr.op]
  | tdmaAdd r => simp [getOperands, putOperands, Instr.op]
  | tdmaStart t c => simp [getOperands, putOperands, Instr.op]
  | tdmaStop => rfl
  | bpskMod bytes => simp [getOperands, putOperands, Instr.op, getSeq_putSeq _ _ getByte_cons]
  | chanApply signal noise => simp [getOperands, putOperands, Instr.op, getSeq_putSeq _ _ getSample_putSample]
  | bpskDemod signal => simp [getOperands, putOperands, Instr.op, getSeq_putSeq _ _ getSample_putSample]

/-- The operation code stands in the low four bits of the byte that carries it (R75). -/
theorem setWidth_code_low (c : BitVec 4) : (c.setWidth 8).extractLsb' 0 4 = c := by
  revert c; decide

theorem decode_encode (i : Instr) (rest : List Byte) : decode (encode i ++ rest) = .ok (i, rest) := by
  rw [encode, List.cons_append, decode, setWidth_code_low, opOfCode_code]
  exact getOperands_putOperands i rest

/-- Settles O57: the decoder leaves exactly the padding, which is zeros. -/
theorem requestRoundTrip : Obligations.RequestRoundTrip := by
  unfold Obligations.RequestRoundTrip
  intro i padding
  simp [decodeRequest, decode_encode]

end Sys2Proof.Machine

namespace Sys2Proof.Machine

open Sys2Proof.Statements

/-! What a move leaves unchanged (spec/10_state.md R34), and the invariant that rests on it (R32). -/

/-- R34's row of the slot step: every move of the scheduler writes these fields only. -/
theorem SchedulerMove.frame {s t : State} (h : SchedulerMove s t) :
    t = { s with running := t.running, stopReq := t.stopReq, slotIdx := t.slotIdx, slotPhase := t.slotPhase,
                 txFrame := t.txFrame, txWritten := t.txWritten, calling := t.calling, reading := t.reading,
                 faultRecord := t.faultRecord, sensorIn := t.sensorIn, transportIn := t.transportIn,
                 clockIn := t.clockIn, out := t.out } := by
  cases h with
  | stays | ends | opens | callsSensor | reads | readFails | builds | buildFails | callsTransport | sent | notSent
  | skips | callsClock | wakes => rfl

theorem SchedulerMove.sources {s t : State} (h : SchedulerMove s t) : t.sources = s.sources := by
  rw [h.frame]

/-- A turn of the scheduler begins no run (R194). -/
theorem SchedulerMove.running_of_running {s t : State} (h : SchedulerMove s t) (running : t.running = true) :
    s.running = true := by
  cases h with
  | ends | readFails | buildFails => cases running
  | stays | opens | callsSensor | reads | builds | callsTransport | sent | notSent | skips | callsClock | wakes =>
    exact running

/-- The index stays or goes to the next source (R26, R131). -/
theorem SchedulerMove.slotIdx {s t : State} (h : SchedulerMove s t) :
    t.slotIdx = s.slotIdx ∨ t.slotIdx = (s.slotIdx + 1) % s.sources.length := by
  cases h with
  | skips | wakes => exact .inr rfl
  | stays | ends | opens | callsSensor | reads | readFails | builds | buildFails | callsTransport | sent | notSent
  | callsClock => exact .inl rfl

/-- The list's part of the invariant is about these three fields only, none of which the scheduler writes. -/
theorem State.ListInv.of_same {s t : State} (h : s.ListInv) (sources : t.sources = s.sources)
    (params : t.params = s.params) (budget : t.slotDuration = s.slotDuration) : t.ListInv := by
  obtain ⟨known, capacity, nonNegative⟩ := h
  exact ⟨by rwa [sources], by rwa [params, sources], by rwa [budget]⟩

/-- A stopped block, no stop pending and no slot in progress, meets the run's and the slot's part of the invariant. -/
theorem State.Inv.of_stopped {t : State} (list : t.ListInv) (stopped : t.running = false) (noStop : t.stopReq = false)
    (at_ : t.slotPhase = .boundary) (idle : t.calling = false) : t.Inv :=
  { run := ⟨by simp [stopped], by simp [stopped], by simp [noStop]⟩
    slot := ⟨fun _ => ⟨at_, idle⟩, by simp [at_]⟩
    list := list }

/-- A running block serves a position of its list, and a frame it is about to transmit is built. -/
theorem State.Inv.of_running {t : State} (list : t.ListInv) (running : t.running = true)
    (inRange : t.slotIdx < t.sources.length) (built : t.slotPhase = .transmit → t.txWritten = true) : t.Inv :=
  { run := ⟨fun _ => Nat.one_le_of_lt inRange, fun _ => inRange, fun _ => running⟩
    slot := ⟨by simp [running], built⟩
    list := list }

/-- A position of the list stays one, for the next source is one as well (R131). -/
theorem SchedulerMove.inRange {s t : State} (h : SchedulerMove s t) (inRange : s.slotIdx < s.sources.length) :
    t.slotIdx < t.sources.length := by
  rw [h.sources]
  obtain same | next := h.slotIdx
  · rwa [same]
  · rw [next]
    exact Nat.mod_lt _ (Nat.zero_lt_of_lt inRange)

/-- Every turn of the scheduler keeps the invariant (R32). -/
theorem SchedulerMove.keeps_inv {s t : State} (h : SchedulerMove s t) (inv : s.Inv) : t.Inv := by
  obtain ⟨params, budget⟩ := h.params_slotDuration
  have list : t.ListInv := inv.list.of_same h.sources params budget
  have inRange (running : s.running = true) := h.inRange (inv.run.idxInRange running)
  have built := inv.slot.builtBeforeTransmit
  cases h with
  | stays => exact inv
  | ends | readFails | buildFails => exact .of_stopped list rfl rfl rfl rfl
  | builds r w run => exact .of_running list run (inRange run) fun _ => rfl
  | callsSensor r run | callsTransport run | callsClock run => exact .of_running list run (inRange run) built
  | opens run | reads v rest run | sent rest run | notSent rest run | skips rest run | wakes n run =>
    exact .of_running list run (inRange run) nofun

/-- The random source and the outputs are outside the invariant. -/
theorem State.Inv.of_outputs {s : State} (h : s.Inv) (rng : Rng) (draws : List Number) (out : List Output) :
    ({ s with rng := rng, drawIn := draws, out := out } : State).Inv := by
  obtain ⟨⟨hasSource, inRange, stop⟩, ⟨stopped, built⟩, ⟨known, capacity, budget⟩⟩ := h
  exact ⟨⟨hasSource, inRange, stop⟩, ⟨stopped, built⟩, ⟨known, capacity, budget⟩⟩

/-- The stop signal is raised only while running, so it is pending only then (R32 (c), R132). -/
theorem State.Inv.requestStop {s : State} (h : s.Inv) : (requestStop s).Inv := by
  unfold Machine.requestStop
  split
  · rename_i running
    obtain ⟨⟨hasSource, inRange, -⟩, ⟨stopped, built⟩, ⟨known, capacity, budget⟩⟩ := h
    exact ⟨⟨hasSource, inRange, fun _ => running⟩, ⟨stopped, built⟩, ⟨known, capacity, budget⟩⟩
  · exact h

/-- There is room exactly where one more source stays within MAX_SOURCES (R123). -/
theorem sourceListFull_eq_false_iff (s : State) :
    sourceListFull s = false ↔ ∀ m, s.params.maxSources = some m → s.sources.length < m := by
  unfold sourceListFull
  split
  case h_1 m bound => simp [bound]
  case h_2 unbounded => simp [unbounded]

/-- A source of a known kind, added while there is room, keeps the list's part of the invariant (R122, R123). -/
theorem State.ListInv.append {s : State} {r : SourceRecord} (h : s.ListInv) (known : r.kind ≠ .unknown)
    (room : sourceListFull s = false) : ({ s with sources := s.sources ++ [r] } : State).ListInv where
  kindsKnown r' member := by
    obtain old | new := List.mem_append.mp member
    · exact h.kindsKnown r' old
    · rwa [List.mem_singleton.mp new]
  withinCapacity m bound := by
    have below := (sourceListFull_eq_false_iff s).mp room m bound
    simpa using below
  durationNonNegative := h.durationNonNegative

/-- Every operation keeps the invariant (R32). -/
theorem ExecMove.keeps_inv {i : Instr} {s t : State} (h : ExecMove s i t) (inv : s.Inv) : t.Inv := by
  cases h with
  | responds status r => exact inv.of_outputs s.rng s.drawIn _
  | adds r stopped known room =>
    have noStop : s.stopReq = false := by
      by_contra pending
      simp [inv.run.stopWhileRunning (by simpa using pending)] at stopped
    obtain ⟨at_, idle⟩ := inv.slot.stoppedAtBoundary stopped
    exact (State.Inv.of_stopped (inv.list.append known room) stopped noStop at_ idle).of_outputs s.rng s.drawIn _
  | starts tr c stopped nonempty =>
    exact .of_running (inv.list.of_same rfl rfl rfl) rfl (List.length_pos_iff.mpr nonempty) nofun
  | stops => exact inv.requestStop.of_outputs _ _ _
  | draws signal noise k r => exact inv.of_outputs _ _ _

/-- A block at its reset values meets the invariant where the budget is in its domain (R33, R23). -/
theorem inv_of_resetValues {t : State} (sources : t.sources = []) (stopped : t.running = false)
    (noStop : t.stopReq = false) (at_ : t.slotPhase = .boundary) (idle : t.calling = false)
    (domain : numberNonNegative t.slotDuration = true) : t.Inv :=
  .of_stopped ⟨by simp [sources], by simp [sources], domain⟩ stopped noStop at_ idle

/-- Settles O43, over the four kinds of step: the reset line alone needs nothing of the invariant before it. -/
theorem stepKeepsInvariant : Obligations.StepKeepsInvariant := by
  unfold Obligations.StepKeepsInvariant
  intro s t inv h
  cases step_move h with
  | operates request i rest _ turn decoded runs => exact (exec_move runs).keeps_inv (inv_turns s rest inv)
  | schedules rest _ turn runs => exact (schedulerTurn_move runs).keeps_inv (inv_turns s rest inv)
  | raisesStop rest turn => exact (inv_turns s rest inv).requestStop
  | resets rest turn stopped domain => exact inv_of_resetValues rfl rfl rfl rfl rfl domain

/-- Settles O44: reset's values meet the invariant, and construction refuses a budget outside its domain. -/
theorem invariantAtReset : Obligations.InvariantAtReset := by
  unfold Obligations.InvariantAtReset
  have domain : numberNonNegative Params.default.slotDuration = true := by decide
  refine ⟨inv_of_resetValues rfl rfl rfl rfl rfl domain, rfl, ?_, fun p s constructed => ?_⟩
  · simp only [construct, domain, if_true, State.reset]
  · obtain ⟨domain, rfl⟩ := construct_next constructed
    exact ⟨inv_of_resetValues rfl rfl rfl rfl rfl domain, rfl⟩

/-- A step that stops the machine with a fault is a turn of the scheduler. -/
theorem step_fault {s : State} {f : Fault} (h : step s = .fault f) :
    ∃ rest, schedulerTurn { s with turns := rest } = .fault f := by
  rcases turns : s.turns with _ | ⟨turn, rest⟩
  · exact ⟨[], by rwa [← step_schedulerNext (.inr ⟨turns, rfl⟩)]⟩
  · cases turn with
    | host request =>
      cases decoded : decodeRequest request with
      | ok i => exact absurd (step_host turns decoded ▸ h) (exec_ne_fault i _ f)
      | error e => simp [step, fetch, turns, decoded] at h
    | scheduler => exact ⟨rest, step_scheduler turns ▸ h⟩
    | stopLine => simp [step, fetch, turns] at h
    | resetLine =>
      simp only [step, fetch, turns, takeReset_eq] at h
      split at h
      · cases h
      · split at h <;> cases h

/-- Settles O45: a fault needs an index that is no position of the list, or a transmit of a frame never built, and the
invariant excludes both. -/
theorem invariantExcludesFaults : Obligations.InvariantExcludesFaults := by
  unfold Obligations.InvariantExcludesFaults
  intro s f inv h
  obtain ⟨rest, turn⟩ := step_fault h
  obtain ⟨running, noSource | ⟨at_, unwritten⟩⟩ := schedulerTurn_fault turn
  · have inRange : s.slotIdx < s.sources.length := inv.run.idxInRange running
    exact absurd inRange (Nat.not_lt.mpr (List.getElem?_eq_none_iff.mp noSource))
  · have written : s.txWritten = true := inv.slot.builtBeforeTransmit at_
    simp [written] at unwritten

/-- Settles O52, by the frame of a move of the scheduler. -/
theorem schedulerWritesOnlyItsState : Obligations.SchedulerWritesOnlyItsState := by
  unfold Obligations.SchedulerWritesOnlyItsState
  intro s t rest next runs
  rw [step_schedulerNext next] at runs
  exact (schedulerTurn_move runs).frame

end Sys2Proof.Machine

namespace Sys2Proof.Machine

open Sys2Proof.Statements

/-! FRAME.ENC's range policy, and what FRAME.DEC reads off bytes one by one (R91, R93, R97, R99). -/

/-- Reduced operands are encoded to the wire bytes of their remainders (R92, R93). -/
theorem frameBytes_wireFrame_mask (flag dest src data : Int) :
    frameBytes (wireFrame ⟨mask 4 flag, mask 10 dest, mask 10 src, mask 24 data⟩)
      = wireBytes (flag % 16).toNat (dest % 1024).toNat (src % 1024).toNat (data % 2 ^ 24).toNat := by
  have reduced (n : Nat) (v : Int) : (mask n v).toNat = (v % (2 ^ n : Nat)).toNat := BitVec.toNat_ofInt v
  simp only [frameBytes_wireFrame, reduced]
  rfl

/-- FRAME.ENC of operands that pass the range check (R92, R93). -/
theorem exec_frameEnc_of_rangeCheck {flag dest src data : Int} {s : State}
    (h : rangeCheck s.params.encRange flag dest src data
      = some ⟨mask 4 flag, mask 10 dest, mask 10 src, mask 24 data⟩) :
    exec (.frameEnc flag dest src data) s = .next (responded s .frameEnc .ok (.bytes
      (wireBytes (flag % 16).toNat (dest % 1024).toNat (src % 1024).toNat (data % 2 ^ 24).toNat))) := by
  rw [exec_frameEnc_of_some (w := wireFrame ⟨mask 4 flag, mask 10 dest, mask 10 src, mask 24 data⟩)
    (by rw [frameEncode, h, Option.map_some]), frameBytes_wireFrame_mask]

theorem exec_frameEnc_of_none {flag dest src data : Int} {s : State}
    (h : rangeCheck s.params.encRange flag dest src data = none) :
    exec (.frameEnc flag dest src data) s = .next (responded s .frameEnc .valueOutOfRange .nothing) := by
  simp only [exec, execFrameEnc, frameEncode, h, Option.map_none, raiseError_eq_responded]

/-- Settles O2: what passes the range check is encoded as its remainders, and the rest raises the error. -/
theorem frameEncRangePolicy : Obligations.FrameEncRangePolicy := by
  unfold Obligations.FrameEncRangePolicy
  intro s flag dest src data
  refine ⟨fun passes => exec_frameEnc_of_rangeCheck ?_, fun policy outside => exec_frameEnc_of_none ?_⟩
  · obtain policy | inFields := passes
    · rw [policy, rangeCheck_mask]
    · exact rangeCheck_of_inFields _ inFields
  · rw [← fitsFields_iff] at outside
    simp only [policy, rangeCheck, if_neg outside]

/-- The first byte of four on top of the other three (R44). -/
theorem firstByte_append (b0 b1 b2 b3 : Byte) : b0 ++ b1 ++ b2 ++ b3 = (b0 ++ (b1 ++ b2 ++ b3) : BitVec 32) := by
  apply BitVec.eq_of_toNat_eq
  simp only [toNat_append_add]
  omega

/-- A field below the first byte of an inverted word is of the other three bytes (R63). -/
theorem wireInvert_field_below_firstByte (b0 b1 b2 b3 : Byte) {lo n : Nat} (below : lo + n ≤ 24) :
    (wireInvert (b0 ++ b1 ++ b2 ++ b3)).extractLsb' lo n = ~~~((b1 ++ b2 ++ b3).extractLsb' lo n) := by
  rw [wireInvert, extractLsb'_not _ (by omega), firstByte_append,
    BitVec.extractLsb'_append_eq_of_add_le (by simpa using below)]

/-- Four bytes of a word are its bytes (R44). -/
theorem wordBytes_append (a b c d : Byte) : wordBytes (a ++ b ++ c ++ d) = [a, b, c, d] := by
  have first : (a ++ b ++ c ++ d).extractLsb' 24 8 = a := by
    apply BitVec.eq_of_toNat_eq; simp only [toNat_field, toNat_append_add]; omega
  have second : (a ++ b ++ c ++ d).extractLsb' 16 8 = b := by
    apply BitVec.eq_of_toNat_eq; simp only [toNat_field, toNat_append_add]; omega
  have third : (a ++ b ++ c ++ d).extractLsb' 8 8 = c := by
    apply BitVec.eq_of_toNat_eq; simp only [toNat_field, toNat_append_add]; omega
  have fourth : (a ++ b ++ c ++ d).extractLsb' 0 8 = d := by
    apply BitVec.eq_of_toNat_eq; simp only [toNat_field, toNat_append_add]; omega
  rw [wordBytes, first, second, third, fourth]

/-- The bytes of an inverted word are the bytes inverted (R44, R63). -/
theorem wireInvert_bytes (a b c d : Byte) :
    (wireInvert (a ++ b ++ c ++ d)).extractLsb' 24 8 = ~~~a ∧ (wireInvert (a ++ b ++ c ++ d)).extractLsb' 16 8 = ~~~b
    ∧ (wireInvert (a ++ b ++ c ++ d)).extractLsb' 8 8 = ~~~c
    ∧ (wireInvert (a ++ b ++ c ++ d)).extractLsb' 0 8 = ~~~d := by
  have bytes := wordBytes_append a b c d
  simp only [wordBytes, List.cons.injEq, and_true] at bytes
  simpa [wireInvert, extractLsb'_not] using bytes

/-- The checksum of the fields two words carry folds the words' bytes between the delimiter and the checksum (R65,
R90). -/
theorem crc8_fieldsOfWords (w0 w1 : BitVec 32) :
    crc8 ⟨w0.extractLsb' 20 4, w0.extractLsb' 10 10, w0.extractLsb' 0 10, w1.extractLsb' 8 24⟩
      = w0.extractLsb' 16 8 ^^^ w0.extractLsb' 8 8 ^^^ w0.extractLsb' 0 8
        ^^^ w1.extractLsb' 24 8 ^^^ w1.extractLsb' 16 8 ^^^ w1.extractLsb' 8 8 := by
  have blob_eq : blob ⟨w0.extractLsb' 20 4, w0.extractLsb' 10 10, w0.extractLsb' 0 10, w1.extractLsb' 8 24⟩
      = w0.extractLsb' 0 24 ++ w1.extractLsb' 8 24 := by
    apply BitVec.eq_of_toNat_eq
    simp only [blob, toNat_append_add, toNat_field]
    omega
  have high (lo : Nat) (within : lo + 8 ≤ 24) :
      (w0.extractLsb' 0 24 ++ w1.extractLsb' 8 24).extractLsb' (24 + lo) 8 = w0.extractLsb' lo 8 := by
    rw [BitVec.extractLsb'_append_eq_of_le (by omega), BitVec.extractLsb'_extractLsb'_of_le (by omega)]
    congr 1
    omega
  have low (lo : Nat) (within : lo + 8 ≤ 24) :
      (w0.extractLsb' 0 24 ++ w1.extractLsb' 8 24).extractLsb' lo 8 = w1.extractLsb' (8 + lo) 8 := by
    rw [BitVec.extractLsb'_append_eq_of_add_le within]
    ext i hi
    have inside : lo + i < 24 := by omega
    simp [inside, Nat.add_assoc]
  simp only [crc8, blob_eq]
  rw [high 16 (by omega), high 8 (by omega), high 0 (by omega), low 16 (by omega), low 8 (by omega), low 0 (by omega)]

theorem not_eq_iff_xor_eq_allOnes {w : Nat} (x y : BitVec w) : ~~~x = y ↔ y ^^^ x = BitVec.allOnes w := by
  rw [← BitVec.allOnes_xor, ← BitVec.xor_left_inj x, BitVec.xor_assoc, BitVec.xor_self, BitVec.xor_zero, eq_comm]

/-- The verdict on eight bytes: inverted, an even number of them fold to what they fold to as they are, so the checksum
is right exactly when it completes the fold to all ones (R91 (c)). -/
theorem checksumValid_bytes (b0 b1 b2 b3 b4 b5 b6 b7 : Byte) :
    (decodeHalves (b0 ++ b1 ++ b2 ++ b3) (b4 ++ b5 ++ b6 ++ b7)).checksumValid = true
      ↔ b1 ^^^ b2 ^^^ b3 ^^^ b4 ^^^ b5 ^^^ b6 ^^^ b7 = 0xFF#8 := by
  obtain ⟨-, e1, e2, e3⟩ := wireInvert_bytes b0 b1 b2 b3
  obtain ⟨e4, e5, e6, e7⟩ := wireInvert_bytes b4 b5 b6 b7
  simp only [decodeHalves, checksumValid, beq_iff_eq, crc8_fieldsOfWords, e1, e2, e3, e4, e5, e6, e7,
    ← BitVec.not_xor_left, ← BitVec.not_xor_right, BitVec.not_not]
  exact not_eq_iff_xor_eq_allOnes _ _

/-- The first byte is read into the delimiter and nothing else (R97). -/
theorem decodeHalves_firstByte (b0 c0 b1 b2 b3 : Byte) (i1 : BitVec 32) :
    decodeHalves (c0 ++ b1 ++ b2 ++ b3) i1 = { decodeHalves (b0 ++ b1 ++ b2 ++ b3) i1 with sfd := ~~~c0 } := by
  obtain ⟨delimiter, -⟩ := wireInvert_bytes c0 b1 b2 b3
  simp [decodeHalves, delimiter, wireInvert_field_below_firstByte]

/-- Settles O5, by the verdict on eight bytes. -/
theorem checksumValidIffBytesFoldToAllOnes : Obligations.ChecksumValidIffBytesFoldToAllOnes := by
  unfold Obligations.ChecksumValidIffBytesFoldToAllOnes
  intro s b0 b1 b2 b3 b4 b5 b6 b7
  exact ⟨_, exec_frameDec_of_some rfl s, checksumValid_bytes b0 b1 b2 b3 b4 b5 b6 b7⟩

/-- Settles O6: the delimiter is the first byte inverted, the checksum the last, and the fields stand between them. -/
theorem frameDecDoesNotCheckDelimiter : Obligations.FrameDecDoesNotCheckDelimiter := by
  unfold Obligations.FrameDecDoesNotCheckDelimiter
  intro s b0 c0 b1 b2 b3 b4 b5 b6 b7
  obtain ⟨delimiter, -⟩ := wireInvert_bytes b0 b1 b2 b3
  obtain ⟨-, -, -, crc⟩ := wireInvert_bytes b4 b5 b6 b7
  refine ⟨_, exec_frameDec_of_some rfl s, delimiter, crc, ?_⟩
  rw [← decodeHalves_firstByte b0 c0]
  exact exec_frameDec_of_some rfl s

/-! Flipped bits (R99): a flip in bytes 1 to 7 turns their fold, and one in byte 0 does not. -/

/-- The exclusive-or of bytes. -/
def foldBytes (b : List Byte) : Byte := b.foldr (· ^^^ ·) 0#8

/-- FRAME.DEC's verdict is true exactly when the bytes after the first fold to all ones (R91 (c)). -/
theorem frameDecode_verdict {b : List Byte} {f : DecodedFrame} (h : frameDecode b = some f) :
    f.checksumValid = true ↔ foldBytes b.tail = 0xFF#8 := by
  have eight := (frameDecode_isSome b).mp (by rw [h]; rfl)
  match b, eight with
  | [b0, b1, b2, b3, b4, b5, b6, b7], _ =>
    rw [← Option.some.inj h, checksumValid_bytes]
    simp only [foldBytes, List.tail_cons, List.foldr_cons, List.foldr_nil, BitVec.xor_zero, BitVec.xor_assoc]

/-- Eight bytes are decoded with the verdict their fold says (R95, R96). -/
theorem exec_frameDec_verdict {b : List Byte} (eight : b.length = 8) (s : State) :
    ∃ f : DecodedFrame, exec (.frameDec b) s = .next (responded s .frameDec .ok (.frame f))
      ∧ (f.checksumValid = true ↔ foldBytes b.tail = 0xFF#8) := by
  obtain ⟨f, decoded⟩ := Option.isSome_iff_exists.mp ((frameDecode_isSome b).mpr eight)
  exact ⟨f, exec_frameDec_of_some decoded s, frameDecode_verdict decoded⟩

/-- What one byte is changed by, the fold is changed by. -/
theorem foldBytes_modify {b : List Byte} {j : Nat} (hj : j < b.length) (m : Byte) :
    foldBytes (b.modify j fun x => x ^^^ m) = foldBytes b ^^^ m := by
  induction b generalizing j with
  | nil => simp at hj
  | cons x b ih =>
    cases j with
    | zero =>
      simp only [foldBytes, List.modify_zero_cons, List.foldr_cons]
      rw [BitVec.xor_assoc, BitVec.xor_comm m, ← BitVec.xor_assoc]
    | succ j =>
      have later := ih (Nat.lt_of_succ_lt_succ hj)
      simp only [foldBytes, List.modify_succ_cons, List.foldr_cons] at later ⊢
      rw [later, BitVec.xor_assoc]

theorem flipBit_length (b : List Byte) (j k : Nat) : (flipBit b j k).length = b.length := List.length_modify ..

/-- A flip in the first byte leaves the fold of the others. -/
theorem foldBytes_tail_flipBit_zero (b : List Byte) (k : Nat) :
    foldBytes (flipBit b 0 k).tail = foldBytes b.tail := by
  cases b <;> rfl

/-- A flip in another byte turns one bit of the fold. -/
theorem foldBytes_tail_flipBit {b : List Byte} {j : Nat} (k : Nat) (hj : j < b.length) (later : j ≠ 0) :
    foldBytes (flipBit b j k).tail = foldBytes b.tail ^^^ (1#8 <<< k) := by
  cases b with
  | nil => simp at hj
  | cons x b =>
    obtain ⟨j, rfl⟩ := Nat.exists_eq_succ_of_ne_zero later
    exact foldBytes_modify (Nat.lt_of_succ_lt_succ hj) _

/-- The bytes of a frame after its delimiter fold to all ones, for its verdict is true (R91, R98). -/
theorem foldBytes_tail_wireBytes {flag dest src data : Nat} (hflag : flag < 16) (hdest : dest < 1024)
    (hsrc : src < 1024) (hdata : data < 2 ^ 24) : foldBytes (wireBytes flag dest src data).tail = 0xFF#8 := by
  obtain ⟨eflag, edest, esrc, edata⟩ := fieldsOfNat_toNat hflag hdest hsrc hdata
  have bytes := frameBytes_wireFrame (fieldsOfNat flag dest src data)
  rw [eflag, edest, esrc, edata] at bytes
  rw [← bytes]
  exact (frameDecode_verdict (frameDecode_wireFrame _)).mp rfl

/-- A byte of one bit is none of zero. -/
theorem oneBit_ne_zero {k : Nat} (hk : k < 8) : 1#8 <<< k ≠ 0#8 := by
  interval_cases k <;> decide

/-- Settles O8: one flip turns the fold of bytes 1 to 7 exactly when it is in one of them, and a second at the same
position turns it back. -/
theorem bitFlipsDetectedAndNot : Obligations.BitFlipsDetectedAndNot := by
  unfold Obligations.BitFlipsDetectedAndNot
  intro s flag dest src data j i k hflag hdest hsrc hdata hj hi hk
  have intact := foldBytes_tail_wireBytes hflag hdest hsrc hdata
  have eight : (wireBytes flag dest src data).length = 8 := rfl
  have flipped : (flipBit (wireBytes flag dest src data) j k).length = 8 := (flipBit_length ..).trans eight
  refine ⟨?_, fun _ laterJ laterI => ?_⟩
  · obtain ⟨f, answered, verdict⟩ := exec_frameDec_verdict flipped s
    refine ⟨f, answered, ?_⟩
    rw [Bool.eq_iff_iff, verdict, decide_eq_true_eq]
    obtain rfl | later := Nat.eq_zero_or_pos j
    · simp only [foldBytes_tail_flipBit_zero, intact]
    · have turned : 0xFF#8 ^^^ 1#8 <<< k ≠ 0xFF#8 := by
        simpa using oneBit_ne_zero hk
      rw [foldBytes_tail_flipBit k (by omega) (by omega), intact]
      simp only [turned, Nat.ne_of_gt later]
  · obtain ⟨f, answered, verdict⟩ := exec_frameDec_verdict ((flipBit_length _ i k).trans flipped) s
    refine ⟨f, answered, verdict.mpr ?_⟩
    rw [foldBytes_tail_flipBit k (by omega) (by omega), foldBytes_tail_flipBit k (by omega) (by omega), intact,
      BitVec.xor_assoc, BitVec.xor_self, BitVec.xor_zero]

end Sys2Proof.Machine

namespace Sys2Proof.Machine

open Sys2Proof.Statements

/-! TDMAScheduler's host operations (R121 to R125, R132), one equation an outcome. -/

section
variable {s : State}

theorem exec_tdmaAdd_running (run : s.running = true) (r : SourceRecord) :
    exec (.tdmaAdd r) s = .next (responded s .tdmaAdd .alreadyRunning .nothing) := by
  simp only [exec, execTdmaAdd, run, if_true, raiseError_eq_responded]

theorem exec_tdmaAdd_unknown (stopped : s.running = false) {r : SourceRecord} (unknown : r.kind = .unknown) :
    exec (.tdmaAdd r) s = .next (responded s .tdmaAdd .configurationError .nothing) := by
  simp only [exec, execTdmaAdd, stopped, Bool.false_eq_true, if_false, unknown, if_true, raiseError_eq_responded]

theorem exec_tdmaAdd_full (stopped : s.running = false) {r : SourceRecord} (known : r.kind ≠ .unknown)
    (full : sourceListFull s = true) : exec (.tdmaAdd r) s = .refused .sourceListFull := by
  simp only [exec, execTdmaAdd, stopped, Bool.false_eq_true, if_false, known, full, if_true]

theorem exec_tdmaAdd_room (stopped : s.running = false) {r : SourceRecord} (known : r.kind ≠ .unknown)
    (room : sourceListFull s = false) :
    exec (.tdmaAdd r) s = .next (answer .tdmaAdd .nothing { s with sources := s.sources ++ [r] }) := by
  simp only [exec, execTdmaAdd, stopped, Bool.false_eq_true, if_false, known, room]

theorem exec_tdmaStart_running (run : s.running = true) (tr c : Nat) :
    exec (.tdmaStart tr c) s = .next (responded s .tdmaStart .alreadyRunning .nothing) := by
  simp only [exec, execTdmaStart, run, if_true, raiseError_eq_responded]

theorem exec_tdmaStart_empty (stopped : s.running = false) (empty : s.sources = []) (tr c : Nat) :
    exec (.tdmaStart tr c) s = .next (responded s .tdmaStart .noSourcesRegistered .nothing) := by
  simp only [exec, execTdmaStart, stopped, Bool.false_eq_true, if_false, empty, List.isEmpty_nil, if_true,
    raiseError_eq_responded]

theorem exec_tdmaStart_enters (stopped : s.running = false) (nonempty : s.sources ≠ []) (tr c : Nat) :
    exec (.tdmaStart tr c) s = .next (enterRun tr c s) := by
  simp [exec, execTdmaStart, stopped, nonempty]

end

/-- The stop signal, in either mode (R132, R202). -/
theorem requestStop_eq (s : State) : requestStop s = { s with stopReq := s.running || s.stopReq } := by
  unfold requestStop
  split
  · rename_i run
    simp only [run, Bool.true_or]
  · rename_i stopped
    have unchanged : (s.running || s.stopReq) = s.stopReq := by simp [stopped]
    rw [unchanged]

/-- TDMA.STOP answers at once (R132). -/
theorem exec_tdmaStop (s : State) : exec .tdmaStop s = .next (answer .tdmaStop .nothing (requestStop s)) := rfl

/-- Settles O13, by the outcome of a record of a known kind while there is room. -/
theorem tdmaAddAppends : Obligations.TdmaAddAppends := by
  unfold Obligations.TdmaAddAppends
  intro s r stopped known room
  exact exec_tdmaAdd_room stopped known ((sourceListFull_eq_false_iff s).mpr room)

/-- Settles O14, by the two outcomes that do not look at the capacity. -/
theorem tdmaAddErrorsStateFirst : Obligations.TdmaAddErrorsStateFirst := by
  unfold Obligations.TdmaAddErrorsStateFirst
  intro s r
  exact ⟨fun run => exec_tdmaAdd_running run r, fun stopped unknown => exec_tdmaAdd_unknown stopped unknown⟩

/-- Settles O15: a list of MAX_SOURCES sources is full. -/
theorem tdmaAddRefusedBeyondCapacity : Obligations.TdmaAddRefusedBeyondCapacity := by
  unfold Obligations.TdmaAddRefusedBeyondCapacity
  intro s r m stopped known bound filled
  have full : sourceListFull s = true := by simpa [sourceListFull, bound] using filled
  exact exec_tdmaAdd_full stopped known full

/-- Settles O16, by the entry actions. -/
theorem tdmaStartEntersRun : Obligations.TdmaStartEntersRun := by
  unfold Obligations.TdmaStartEntersRun
  exact fun s tr c stopped nonempty => exec_tdmaStart_enters stopped nonempty tr c

/-- Settles O17, by the two entry checks. -/
theorem tdmaStartEntryChecks : Obligations.TdmaStartEntryChecks := by
  unfold Obligations.TdmaStartEntryChecks
  exact fun s tr c =>
    ⟨fun run => exec_tdmaStart_running run tr c, fun stopped empty => exec_tdmaStart_empty stopped empty tr c⟩

/-- Settles O18, by what the stop signal does in either mode. -/
theorem tdmaStopRaisesSignal : Obligations.TdmaStopRaisesSignal := by
  unfold Obligations.TdmaStopRaisesSignal
  refine fun s => ⟨fun run => ?_, fun stopped => ?_⟩
  · rw [exec_tdmaStop, requestStop_eq, run]
    rfl
  · rw [exec_tdmaStop, requestStop, if_neg (by simp [stopped]), answer_eq_responded]

/-- Settles O20: the sequence does not fit the bound. -/
theorem bpskModRefusedBeyondMaxBytes : Obligations.BpskModRefusedBeyondMaxBytes := by
  unfold Obligations.BpskModRefusedBeyondMaxBytes
  intro s b m bound longer
  have unfit : ¬ fitsMaxBytes s b = true := fun fits => Nat.not_lt.mpr ((fitsMaxBytes_iff s b).mp fits m bound) longer
  simp only [exec, execBpskMod, if_neg unfit]

/-! The lines (R202, R210 to R212). -/

theorem step_stopLine {s : State} {rest : List Turn} (turn : s.turns = .stopLine :: rest) :
    step s = .next (requestStop { s with turns := rest }) := by
  simp only [step, fetch, turn]

theorem step_resetLine {s : State} {rest : List Turn} (turn : s.turns = .resetLine :: rest) :
    step s = takeReset { s with turns := rest } := by
  simp only [step, fetch, turn]

/-- The budgets construction takes are those D25 does not refuse. -/
theorem numberNonNegative_iff (x : Number) : numberNonNegative x = true ↔ ¬ BudgetRefused x := by
  cases x with
  | fin q => simp [numberNonNegative, BudgetRefused, BelowZero, le_iff_lt_or_eq, eq_comm (a := q)]
  | real t =>
    obtain ⟨r, is⟩ := denotes_exists t
    have below : BelowZero (.real t) ↔ r < 0 := by
      refine ⟨?_, fun negative => .inr ⟨t, r, is, negative, rfl⟩⟩
      rintro (⟨q, -, ⟨⟩⟩ | ⟨t, r', is', negative, ⟨⟩⟩)
      rwa [denotes_unique is is']
    simp [BudgetRefused, below, numberNonNegative, realSign_eq_gt is, realSign_eq_eq is, le_iff_lt_or_eq,
      eq_comm (a := r)]
  | negZero => simp [BudgetRefused, BelowZero, numberNonNegative, numberPositive, numberIsZero, numberSign]
  | inf negative =>
    cases negative <;> simp [BudgetRefused, BelowZero, numberNonNegative, numberPositive, numberIsZero, numberSign]
  | nan => simp [BudgetRefused, numberNonNegative, numberPositive, numberIsZero, numberSign]

/-- Settles O39: the stop line raises the signal while running and loses it while stopped. -/
theorem stopLineIsStop : Obligations.StopLineIsStop := by
  unfold Obligations.StopLineIsStop
  intro s rest turn
  rw [step_stopLine turn, requestStop_eq]

/-- Settles O40: reset of a stopped block with an allowed budget. -/
theorem resetLinePutsResetValues : Obligations.ResetLinePutsResetValues := by
  unfold Obligations.ResetLinePutsResetValues
  intro s rest turn stopped allowed
  have domain := (numberNonNegative_iff _).mpr allowed
  rw [step_resetLine turn, takeReset_eq]
  simp only [stopped, Bool.false_eq_true, if_false, domain, if_true]
  rfl

/-- Settles O41, by the choice the reset line and construction make on the budget. -/
theorem resetRefusals : Obligations.ResetRefusals := by
  unfold Obligations.ResetRefusals
  refine ⟨fun s rest turn => ⟨fun run => ?_, fun stopped refused => ?_⟩,
    fun p => ⟨fun refused => ?_, fun allowed => ?_⟩⟩
  · rw [step_resetLine turn, takeReset_eq, if_pos run]
  · have outside : ¬ numberNonNegative s.params.slotDuration = true := by simpa [numberNonNegative_iff] using refused
    rw [step_resetLine turn, takeReset_eq]
    simp only [stopped, Bool.false_eq_true, if_false, outside]
  · have outside : ¬ numberNonNegative p.slotDuration = true := by simpa [numberNonNegative_iff] using refused
    rw [construct, if_neg outside]
  · rw [construct, if_pos ((numberNonNegative_iff _).mpr allowed)]

/-! Requests refused by their code (R76, R77). -/

/-- Settles O58, by evaluating the ten words. -/
theorem tableWordsDecode : Obligations.TableWordsDecode := by
  unfold Obligations.TableWordsDecode
  decide

theorem opOfCode_reserved {c : BitVec 4} (reserved : 10 ≤ c.toNat) : opOfCode c = none := by
  revert c; decide

/-- A reserved code is no operation's, so nothing after it is read (R77). -/
theorem decodeRequest_reserved {b : Byte} (reserved : 10 ≤ b.toNat % 16) (operands : List Byte) :
    decodeRequest (b :: operands) = .error (.reservedOpcode (BitVec.ofNat 4 b.toNat)) := by
  have code : b.extractLsb' 0 4 = BitVec.ofNat 4 b.toNat := by rw [BitVec.extractLsb', Nat.shiftRight_zero]
  have noOperation : opOfCode (BitVec.ofNat 4 b.toNat) = none := opOfCode_reserved (by rwa [BitVec.toNat_ofNat])
  simp only [decodeRequest, decode, code, noOperation]

/-- Settles O59: a host turn whose bytes are no request is refused, a reserved code by its name. -/
theorem reservedCodesRefused : Obligations.ReservedCodesRefused := by
  unfold Obligations.ReservedCodesRefused
  intro s b operands rest turn reserved
  simp only [step, fetch, turn, decodeRequest_reserved reserved, refusalOf]

end Sys2Proof.Machine

namespace Sys2Proof.Machine

open Sys2Proof.Statements

/-! The slot step (R126 to R135): a slot whose transmit fails, the frame of a reading, the errors that end a run. -/

/-- Settles O29: it is a slot whose transmit fails, with one suspension or none. -/
theorem failedTransmitReportedNotRetried : Obligations.FailedTransmitReportedNotRetried := by
  unfold Obligations.FailedTransmitReportedNotRetried
  intro s r v w sensors transports c ready value answered clock frame
  refine ⟨fun suspends => ?_, fun skips => ?_⟩
  · have one : suspensions s.params .fail = 1 := by simp [suspensions, suspends]
    have runs := run_slot ready value answered (c := c) (by rw [one, clock, Nat.add_comm]) frame
    rw [one] at runs
    simpa [slotOutputs, closingOutputs, transmitReport, one] using runs
  · have noWait : suspensions s.params .fail = 0 := by simp [suspensions, skips]
    have runs := run_slot ready value answered (c := c + 1) (by rw [noWait, clock, Nat.zero_add]) frame
    rw [noWait, ← clock] at runs
    simpa [slotOutputs, closingOutputs, transmitReport, noWait] using runs

/-- The payload of three reduced operands is a number of 24 bits (R66). -/
theorem payload_mask_toNat (nb t aq : Int) :
    (payload (mask 8 nb) (mask 8 t) (mask 8 aq)).toNat = payloadNat nb t aq := by
  have byte (v : Int) : (v % 256).toNat < 2 ^ 8 := by omega
  have fits : payloadNat nb t aq < 2 ^ 24 := by
    refine Nat.or_lt_two_pow (Nat.or_lt_two_pow ?_ ?_) ((byte aq).trans (by decide))
    · rw [Nat.shiftLeft_eq]; have := byte nb; omega
    · rw [Nat.shiftLeft_eq]; have := byte t; omega
  rw [payload_mask, BitVec.toNat_ofNat, Nat.mod_eq_of_lt fits]

/-- The frame of fields that are a record's addresses and readings SENS.PACK takes (R128). -/
theorem buildFrame_inRange {p : Params} {r : SourceRecord} {v nb t aq : Int}
    (fields : buildFields p r v = ⟨flagData, r.dest.toNat, r.src.toNat, nb, t, aq⟩) (cold : -128 ≤ t) (hot : t ≤ 127) :
    (buildFrame p r v).map frameBytes = some (wireBytes 1 r.dest.toNat r.src.toNat (payloadNat nb t aq)) := by
  have packed : sensPack nb t aq = some (payload (mask 8 nb) (mask 8 t) (mask 8 aq)) := by
    rw [sensPack, if_pos ((temperatureInRange_iff t).mpr ⟨cold, hot⟩)]
  have inFields (d : BitVec 24) : InFields flagData r.dest.toNat r.src.toNat d.toNat := by
    unfold InFields flagData
    omega
  simp only [buildFrame, fields, packed, frameEncode]
  rw [rangeCheck_of_inFields p.encRange (inFields _), Option.map_some, Option.map_some, frameBytes_wireFrame]
  simp only [mask_toNat_self]
  rw [payload_mask_toNat]
  rfl

theorem buildFrame_outOfRange {p : Params} {r : SourceRecord} {v : Int}
    (out : (buildFields p r v).temperature < -128 ∨ 127 < (buildFields p r v).temperature) :
    buildFrame p r v = none := by
  have rejected : ¬ temperatureInRange (buildFields p r v).temperature = true := by rw [temperatureInRange_iff]; omega
  simp only [buildFrame, sensPack, if_neg rejected]

/-- Settles O30, kind by kind: only a temperature can be out of range. -/
theorem standardFrameOfReading : Obligations.StandardFrameOfReading := by
  unfold Obligations.StandardFrameOfReading
  intro p r v standard
  have fields : buildFields p r v = standardFields p r v := by rw [buildFields, standard]
  refine ⟨fun kind => ?_, fun kind cold hot => ?_, fun kind out => ?_, fun kind => ?_⟩
  · exact buildFrame_inRange (by rw [fields, standardFields, kind]) (by decide) (by decide)
  · exact buildFrame_inRange (by rw [fields, standardFields, kind]) cold hot
  · exact buildFrame_outOfRange (by rwa [fields, standardFields, kind])
  · refine ⟨(p.aqTable.lookup v).getD (Config.aqTransform v), ?_, ?_, ?_⟩
    · intro unlisted
      rw [unlisted, Option.getD_none]
    · intro x listed
      rw [listed, Option.getD_some]
    · exact buildFrame_inRange (by rw [fields, standardFields, kind]) (by decide) (by decide)

/-- Settles O37, by the two turns that end a run on an error. -/
theorem buildErrorEndsRun : Obligations.BuildErrorEndsRun := by
  unfold Obligations.BuildErrorEndsRun
  intro s rest r run next src
  refine ⟨fun at_ noFrame => ?_, fun sensors at_ called fails => ?_⟩
  · rw [step_schedulerNext next]
    exact turn_buildFails (s := { s with turns := rest }) run src at_ noFrame
  · rw [step_schedulerNext next]
    exact turn_readFails (s := { s with turns := rest }) run src at_ called fails

/-- The source after a position of the list: the next one, or the first after the last (R131). -/
theorem next_index {k n : Nat} (inRange : k < n) : (k + 1) % n = if k + 1 = n then 0 else k + 1 := by
  split
  · rename_i last
    rw [last, Nat.mod_self]
  · exact Nat.mod_eq_of_lt (by omega)

/-- Settles O38, by the turn that ends a suspension. -/
theorem indexAdvancesAndWraps : Obligations.IndexAdvancesAndWraps := by
  unfold Obligations.IndexAdvancesAndWraps
  intro s rest n run at_ called next inRange clock
  have src := List.getElem?_eq_getElem inRange
  rw [step_schedulerNext next, ← next_index inRange]
  exact turn_wakes (s := { s with turns := rest }) run src at_ called clock

end Sys2Proof.Machine

namespace Sys2Proof.Machine

open Sys2Proof.Statements

/-! What a step can write (spec/10_state.md R34): the mode, the list, the index, the fault record, the outputs. -/

/-- R34: what each operation can write. -/
theorem ExecMove.frame {i : Instr} {s t : State} (h : ExecMove s i t) :
    (isStateless i.op = true → t = { s with out := t.out })
    ∧ (i.op = .chanApply → t = { s with rng := t.rng, drawIn := t.drawIn, out := t.out })
    ∧ (i.op = .tdmaAdd → t = { s with sources := t.sources, out := t.out })
    ∧ (i.op = .tdmaStart →
        t = { s with running := t.running, stopReq := t.stopReq, slotIdx := t.slotIdx, slotPhase := t.slotPhase,
                     calling := t.calling, transport := t.transport, clock := t.clock, out := t.out })
    ∧ (i.op = .tdmaStop → t = { s with stopReq := t.stopReq, out := t.out }) := by
  cases h with
  | responds i status r => exact ⟨fun _ => rfl, fun _ => rfl, fun _ => rfl, fun _ => rfl, fun _ => rfl⟩
  | adds r => exact ⟨nofun, nofun, fun _ => rfl, nofun, nofun⟩
  | starts tr c => exact ⟨nofun, nofun, nofun, fun _ => rfl, nofun⟩
  | stops => exact ⟨nofun, nofun, nofun, nofun, fun _ => by rw [requestStop_eq]; rfl⟩
  | draws signal noise k r => exact ⟨nofun, fun _ => rfl, nofun, nofun, nofun⟩

/-- Settles O51, by the frame of the next states of an operation. -/
theorem operationsWriteOnlyTheirState : Obligations.OperationsWriteOnlyTheirState := by
  unfold Obligations.OperationsWriteOnlyTheirState
  exact fun i s t h => (exec_move h).frame

/-- TDMA.ADD alone writes the list, and only while stopped (R122, R32 (d)). -/
theorem ExecMove.sources_of_running {i : Instr} {s t : State} (h : ExecMove s i t) (run : s.running = true) :
    t.sources = s.sources := by
  cases h with
  | adds r stopped => simp [run] at stopped
  | responds | starts | stops | draws => simp

/-- Settles O46, over the four kinds of step: ADD and the reset line, which write the list, need a stopped block. -/
theorem sourcesFixedWhileRunning : Obligations.SourcesFixedWhileRunning := by
  unfold Obligations.SourcesFixedWhileRunning
  intro s t run h
  cases step_move h with
  | operates request i rest _ turn decoded runs => exact (exec_move runs).sources_of_running run
  | schedules rest _ turn runs => exact (schedulerTurn_move runs).sources
  | raisesStop rest turn => exact requestStop_sources _
  | resets rest turn stopped => simp [run] at stopped

/-- No operation ends a run (R194). -/
theorem ExecMove.running_kept {i : Instr} {s t : State} (h : ExecMove s i t) (run : s.running = true) :
    t.running = true := by
  cases h with
  | starts => rfl
  | responds | adds | stops | draws => simpa using run

/-- TDMA.START on a list that is not empty is the only operation that begins a run (R194, D35). -/
theorem ExecMove.starts_of_running {i : Instr} {s t : State} (h : ExecMove s i t) (stopped : s.running = false)
    (runs : t.running = true) : s.sources ≠ [] ∧ ∃ tr c, i = .tdmaStart tr c := by
  cases h with
  | starts tr c _ nonempty => exact ⟨nonempty, tr, c, rfl⟩
  | responds | adds | stops | draws => simp [stopped] at runs

/-- The scheduler leaves the running mode at a boundary that observes the stop, or on an error of the slot (R127,
R135). -/
theorem SchedulerMove.ends_of_stopped {s t : State} (h : SchedulerMove s t) (run : s.running = true)
    (stopped : t.running = false) :
    (s.stopReq = true ∧ s.slotPhase = .boundary ∧ t.out = s.out ++ [.response .tdmaStart .ok .nothing])
    ∨ ((s.slotPhase = .read ∨ s.slotPhase = .build) ∧ t.faultRecord ≠ none
        ∧ t.out = s.out ++ [.response .tdmaStart .valueOutOfRange .nothing]) := by
  cases h with
  | ends _ stop at_ => exact .inl ⟨stop, at_, rfl⟩
  | readFails rest _ at_ => exact .inr ⟨.inl at_, nofun, rfl⟩
  | buildFails r _ at_ => exact .inr ⟨.inr at_, nofun, rfl⟩
  | stays | opens | callsSensor | reads | builds | callsTransport | sent | notSent | skips | callsClock | wakes =>
    simp [run] at stopped

/-- Settles O47, over the four kinds of step: only a TDMA.START begins a run, and only the scheduler ends one. -/
theorem modeChangesOnlyAsStated : Obligations.ModeChangesOnlyAsStated := by
  unfold Obligations.ModeChangesOnlyAsStated
  intro s t h
  cases step_move h with
  | operates request i rest _ turn decoded runs =>
    refine ⟨fun stopped running => ?_, fun run ended => ?_⟩
    · obtain ⟨nonempty, tr, c, rfl⟩ := (exec_move runs).starts_of_running stopped running
      exact ⟨request, rest, tr, c, turn, decoded, nonempty⟩
    · simp [(exec_move runs).running_kept run] at ended
  | schedules rest _ turn runs =>
    have move := schedulerTurn_move runs
    refine ⟨fun stopped running => ?_, fun run ended => move.ends_of_stopped run ended⟩
    have run : s.running = true := move.running_of_running running
    simp [run] at stopped
  | raisesStop rest turn =>
    refine ⟨fun stopped running => ?_, fun run ended => ?_⟩
    · simp [stopped] at running
    · simp [run] at ended
  | resets rest turn stopped =>
    refine ⟨nofun, fun run => ?_⟩
    simp [run] at stopped

/-- Settles O49, over the four kinds of step: a run begins and a reset leaves the block at the first source, and the
scheduler moves on to the next. -/
theorem slotIndexNeverJumps : Obligations.SlotIndexNeverJumps := by
  unfold Obligations.SlotIndexNeverJumps
  intro s t h
  cases step_move h with
  | operates request i rest _ turn decoded runs =>
    cases exec_move runs with
    | starts => exact .inr (.inr rfl)
    | responds | adds | stops | draws => exact .inl (by simp)
  | schedules rest _ turn runs =>
    obtain same | next := (schedulerTurn_move runs).slotIdx
    · exact .inl same
    · exact .inr (.inl next)
  | raisesStop rest turn => exact .inl (requestStop_slotIdx _)
  | resets rest turn => exact .inr (.inr rfl)

/-- No operation writes the fault record (R34). -/
theorem ExecMove.faultRecord {i : Instr} {s t : State} (h : ExecMove s i t) : t.faultRecord = s.faultRecord := by
  cases h with
  | responds | adds | starts | stops | draws => simp

/-- An error of a slot is recorded only where none is yet (R192). -/
theorem SchedulerMove.faultRecord_kept {s t : State} {f : RunFault} (h : SchedulerMove s t)
    (recorded : s.faultRecord = some f) : t.faultRecord = some f := by
  cases h with
  | readFails | buildFails => simp [recorded]
  | stays | ends | opens | callsSensor | reads | builds | callsTransport | sent | notSent | skips | callsClock
  | wakes => exact recorded

/-- Settles O53, over the four kinds of step: the reset line keeps the record too. -/
theorem faultRecordKept : Obligations.FaultRecordKept := by
  unfold Obligations.FaultRecordKept
  intro s t f recorded h
  cases step_move h with
  | operates request i rest _ turn decoded runs => exact (exec_move runs).faultRecord.trans recorded
  | schedules rest _ turn runs => exact (schedulerTurn_move runs).faultRecord_kept recorded
  | raisesStop rest turn => exact (requestStop_faultRecord _).trans recorded
  | resets rest turn => exact recorded

/-- Outputs put on the ports between two states: nothing is taken back, and beside draws there is at most one thing
(R197, R203). -/
def AddsAtMostOne (s t : State) : Prop :=
  ∃ outs, t.out = s.out ++ outs ∧ (outs.filter fun o => !isDraw o).length ≤ 1

theorem addsAtMostOne_of_same {s t : State} (same : t.out = s.out) : AddsAtMostOne s t :=
  ⟨[], by simp [same], by simp⟩

theorem addsAtMostOne_of_one {s t : State} {o : Output} (one : t.out = s.out ++ [o]) : AddsAtMostOne s t :=
  ⟨[o], one, List.length_filter_le _ _⟩

/-- An operation answers at most once, after its draws (R197, R201). -/
theorem ExecMove.addsAtMostOne {i : Instr} {s t : State} (h : ExecMove s i t) : AddsAtMostOne s t := by
  cases h with
  | responds i status r => exact addsAtMostOne_of_one (respond_out s _ _ _)
  | adds r => exact addsAtMostOne_of_one (answer_out ..)
  | starts tr c => exact addsAtMostOne_of_same (enterRun_out s tr c)
  | stops => exact addsAtMostOne_of_one (o := .response .tdmaStop .ok .nothing) (by simp)
  | draws signal noise k r =>
    exact ⟨List.replicate k (.draw noise) ++ [.response .chanApply .ok r], by simp, by simp [isDraw]⟩

/-- A turn of the scheduler puts nothing on the ports or one thing, which is the call, the event or the answer the turn
is for (R126, R127, R129, R135). -/
theorem SchedulerMove.out {s t : State} (h : SchedulerMove s t) : t.out = s.out ∨ ∃ o, t.out = s.out ++ [o] := by
  cases h with
  | stays | opens | reads | builds | sent | wakes => exact .inl rfl
  | ends | callsSensor | readFails | buildFails | callsTransport | notSent | skips | callsClock => exact .inr ⟨_, rfl⟩

/-- Settles O56, over the four kinds of step. -/
theorem outputOnlyGrows : Obligations.OutputOnlyGrows := by
  unfold Obligations.OutputOnlyGrows
  intro s t h
  cases step_move h with
  | operates request i rest _ turn decoded runs => exact (exec_move runs).addsAtMostOne
  | schedules rest _ turn runs =>
    obtain same | ⟨o, one⟩ := (schedulerTurn_move runs).out
    · exact addsAtMostOne_of_same same
    · exact addsAtMostOne_of_one one
  | raisesStop rest turn => exact addsAtMostOne_of_same (requestStop_out _)
  | resets rest turn => exact addsAtMostOne_of_same rfl

/-- A turn of the scheduler of a stopped block does nothing (R194, R211). -/
theorem turn_stopped {s : State} (stopped : s.running = false) : schedulerTurn s = .next s := by
  rw [schedulerTurn, if_pos stopped]

/-- Settles O42: the step of a stopped block with no turn named leaves it as it is. -/
theorem stoppedBlockWaits : Obligations.StoppedBlockWaits := by
  unfold Obligations.StoppedBlockWaits
  intro s n stopped noTurns
  exact run_of_step_stays ((step_noTurns noTurns).trans (turn_stopped stopped)) n

end Sys2Proof.Machine

namespace Sys2Proof.Machine

open Sys2Proof.Statements

/-! After a stop (R216): how many transmissions a scheduler left to itself can still begin. -/

/-- The transmissions still to begin before the next boundary. -/
def transmitsLeft (s : State) : Nat :=
  match s.running, s.slotPhase, s.calling with
  | true, .read, _ => 1
  | true, .build, _ => 1
  | true, .transmit, false => 1
  | _, _, _ => 0

theorem transmitsLeft_le_one (s : State) : transmitsLeft s ≤ 1 := by
  unfold transmitsLeft
  split <;> decide

/-- Once a transmission has begun, TRANSMIT begins no other: it waits for the answer and reports it (R129). -/
theorem transmitPhase_called {s t : State} (called : s.calling = true) (h : transmitPhase s = .next t) :
    t.out = s.out ∨ t.out = s.out ++ [.event .transportFailure s.slotIdx] := by
  unfold transmitPhase at h
  rw [if_pos called] at h
  split at h
  · cases h; exact .inl rfl
  · simp only at h
    split at h <;> (cases h; exact .inr rfl)
  · cases h; exact .inl rfl

/-- A turn that begins a transmission is one of TRANSMIT with no call in progress (R129). -/
theorem idle_of_transmits {s t : State} {tr : Nat} {b : List Byte} (h : schedulerTurn s = .next t)
    (run : s.running = true) (at_ : s.slotPhase = .transmit) (transmits : t.out = s.out ++ [.transmit tr b]) :
    s.calling = false := by
  by_contra busy
  have called : s.calling = true := by simpa using busy
  cases src : s.sources[s.slotIdx]? with
  | none => simp [schedulerTurn, run, observesStop, at_, src] at h
  | some r =>
    rw [turn_insideSlot run src (by simp [at_]), slotPhaseStep, at_] at h
    obtain same | event := transmitPhase_called called h
    · simp [same] at transmits
    · simp [event] at transmits

/-- What a turn puts on the ports begins no more transmissions than it takes off those left. -/
def SpendsTransmits (s t : State) : Prop :=
  ∃ outs, t.out = s.out ++ outs ∧ (outs.filter isTransmit).length + transmitsLeft t ≤ transmitsLeft s

theorem spendsTransmits_refl (s : State) : SpendsTransmits s s := ⟨[], by simp, by simp⟩

theorem SpendsTransmits.trans {s t u : State} (first : SpendsTransmits s t) (later : SpendsTransmits t u) :
    SpendsTransmits s u := by
  obtain ⟨outs, out, spent⟩ := first
  obtain ⟨outs', out', spent'⟩ := later
  refine ⟨outs ++ outs', by rw [out', out, List.append_assoc], ?_⟩
  rw [List.filter_append, List.length_append]
  omega

/-- With a stop pending no slot is opened, and in a slot only a turn that begins a transmission spends one. -/
theorem turn_spendsTransmits {s t : State} (h : schedulerTurn s = .next t)
    (stop : s.running = true → s.stopReq = true) :
    SpendsTransmits s t := by
  cases schedulerTurn_move h with
  | stays => exact spendsTransmits_refl s
  | opens run noStop => simp [stop run] at noStop
  | ends => exact ⟨_, endRun_out s .ok, Nat.zero_le _⟩
  | callsSensor r run at_ => exact ⟨_, emit_out _ _, by simp [isTransmit, transmitsLeft, at_, run]⟩
  | reads v rest run at_ => exact ⟨[], by simp, by simp [transmitsLeft, at_, run]⟩
  | readFails => exact ⟨_, endRunOnFault_out _ _, Nat.zero_le _⟩
  | builds r w run at_ => exact ⟨[], by simp, by simp [transmitsLeft, at_, run]⟩
  | buildFails => exact ⟨_, endRunOnFault_out _ _, Nat.zero_le _⟩
  | callsTransport run at_ =>
    have idle := idle_of_transmits h run at_ rfl
    exact ⟨_, emit_out _ _, by simp [List.filter_singleton, isTransmit, transmitsLeft, at_, run, idle]⟩
  | sent rest run => exact ⟨[], by simp, by simp [transmitsLeft, run]⟩
  | notSent rest run => exact ⟨_, rfl, by simp [isTransmit, transmitsLeft, run]⟩
  | skips rest run => exact ⟨_, rfl, by simp [isTransmit, transmitsLeft, run]⟩
  | callsClock run at_ => exact ⟨_, emit_out _ _, by simp [isTransmit, transmitsLeft, at_, run]⟩
  | wakes n run => exact ⟨[], by simp, by simp [transmitsLeft, run]⟩

/-- A pending stop stays pending while the run goes on (R54). -/
theorem SchedulerMove.stop_kept {s t : State} (h : SchedulerMove s t) (stop : s.running = true → s.stopReq = true) :
    t.running = true → t.stopReq = true := by
  cases h with
  | ends | readFails | buildFails => exact nofun
  | stays | opens | callsSensor | reads | builds | callsTransport | sent | notSent | skips | callsClock | wakes =>
    exact stop

theorem SchedulerMove.turns {s t : State} (h : SchedulerMove s t) : t.turns = s.turns := by
  rw [h.frame]

/-- A run of any length spends no more transmissions than its first slot had left, by induction on its turns. -/
theorem run_spendsTransmits {n : Nat} {s t : State} (stop : s.running = true → s.stopReq = true)
    (noTurns : s.turns = []) (h : Host.Core.run Sys2Proof.core n s = .next t) : SpendsTransmits s t := by
  induction n generalizing s with
  | zero =>
    obtain rfl := Host.Outcome.next.inj h
    exact spendsTransmits_refl s
  | succ n ih =>
    rw [run_succ, step_noTurns noTurns] at h
    split at h
    · rename_i u turn
      have move := schedulerTurn_move turn
      exact (turn_spendsTransmits turn stop).trans (ih (move.stop_kept stop) (move.turns.trans noTurns) h)
    · cases h
    · cases h

/-- Settles O34: a slot has at most one transmission left. -/
theorem atMostOneTransmitAfterStop : Obligations.AtMostOneTransmitAfterStop := by
  unfold Obligations.AtMostOneTransmitAfterStop
  intro s t n run stop noTurns h
  obtain ⟨outs, out, spent⟩ := run_spendsTransmits (fun _ => stop) noTurns h
  have left := transmitsLeft_le_one s
  exact ⟨outs, out, by omega⟩

end Sys2Proof.Machine

namespace Sys2Proof.Machine

open Sys2Proof.Statements

/-! What an operation answers, and on what of the state its answer depends (R56, R163, R191). -/

/-- One of the six operations without a state gives one answer in every state with the same parameters; an error among
them carries no result (R34, R191). -/
theorem exec_stateless {i : Instr} {s t : State} (stateless : isStateless i.op = true) (h : exec i s = .next t) :
    ∃ e r, (e ≠ .ok → r = .nothing)
      ∧ ∀ u : State, u.params = s.params → exec i u = .next (responded u i.op e r) := by
  cases i with
  | frameEnc flag dest src data =>
    cases encoded : frameEncode s.params.encRange flag dest src data with
    | some w =>
      refine ⟨.ok, _, nofun, fun u same => exec_frameEnc_of_some (w := w) ?_⟩
      rwa [same]
    | none =>
      refine ⟨.valueOutOfRange, .nothing, fun _ => rfl, fun u same => exec_frameEnc_of_none ?_⟩
      rw [same]
      exact Option.map_eq_none_iff.mp encoded
  | frameDec bytes =>
    cases decoded : frameDecode bytes with
    | some f => exact ⟨.ok, _, nofun, fun u _ => exec_frameDec_of_some decoded u⟩
    | none => exact ⟨.invalidFrameLength, .nothing, fun _ => rfl, fun u _ => exec_frameDec_of_none decoded u⟩
  | sensPack nb te aq =>
    by_cases out : te < -128 ∨ 127 < te
    · exact ⟨.valueOutOfRange, .nothing, fun _ => rfl, fun u _ => exec_sensPack_outOfRange nb aq out u⟩
    · exact ⟨.ok, _, nofun, fun u _ => exec_sensPack_inRange nb aq (by omega) (by omega) u⟩
  | sensUnpack data => exact ⟨.ok, _, nofun, fun u _ => exec_sensUnpack data u⟩
  | bpskMod bytes =>
    have fits : fitsMaxBytes s bytes = true := by
      by_contra unfit
      simp [exec, execBpskMod, unfit] at h
    refine ⟨.ok, _, nofun, fun u same => exec_bpskMod_of_fits ?_⟩
    rw [fitsMaxBytes_iff, same]
    exact (fitsMaxBytes_iff s bytes).mp fits
  | bpskDemod signal => exact ⟨.ok, _, nofun, fun u _ => exec_bpskDemod signal u⟩
  | tdmaAdd | tdmaStart | tdmaStop | chanApply => cases stateless

/-- Two blocks whose random sources are alike, with the same parameters (R163). -/
structure SameSource (s u : State) : Prop where
  params : u.params = s.params
  rng : u.rng = s.rng
  drawIn : u.drawIn = s.drawIn

theorem SameSource.askDraws {s u : State} (h : SameSource s u) (k : Nat) (scale : Number) :
    SameSource (askDraws k scale s) (askDraws k scale u) :=
  ⟨h.params, by simp [h.rng], by simp [h.drawIn]⟩

theorem SameSource.drawAt {s u : State} (h : SameSource s u) (scale : Number) (n : Nat) :
    drawAt scale u n = drawAt scale s n := by
  simp only [Machine.drawAt, h.rng, h.drawIn]

/-- The channel makes the same of a signal where the draws are the same, by induction on the signal (R163). -/
theorem SameSource.channel {s u : State} (h : SameSource s u) (noise : Number) (signal : List Sample) :
    (channel noise signal u).1 = (channel noise signal s).1 := by
  induction signal generalizing s u with
  | nil => rfl
  | cons x xs ih => rw [channel_cons, channel_cons, h.params, h.drawAt, h.drawAt, ih (h.askDraws 2 noise)]

/-- CHAN.APPLY gives one answer and asks for as many draws in every state with the same parameters and random source
(R56, D32). -/
theorem exec_chanApply_sameSource {signal : List Sample} {noise : Number} {s t : State}
    (h : exec (.chanApply signal noise) s = .next t) :
    ∃ k r, ∀ u : State, SameSource s u →
      exec (.chanApply signal noise) u = .next (answer .chanApply r (askDraws k noise u)) := by
  cases domain : noiseInDomain noise with
  | false => simp [exec_chanApply_outOfDomain domain] at h
  | true =>
    cases zero : numberIsZero noise with
    | true =>
      refine ⟨zeroNoiseDraws s signal, .signal signal, fun u same => ?_⟩
      have draws : zeroNoiseDraws u signal = zeroNoiseDraws s signal := by simp only [zeroNoiseDraws, same.rng]
      simp [exec, execChanApply, domain, zero, draws]
    | false =>
      refine ⟨2 * signal.length, .signal (channel noise signal s).1, fun u same => ?_⟩
      obtain ⟨ys, made, -, -⟩ := channel_eq noise signal u
      have alike : (channel noise signal s).1 = ys := by rw [← same.channel, made]
      simp [exec, execChanApply, domain, zero, made, alike]

/-- Settles O55: what is put on the ports does not depend on the state beside the parameters and the random source. -/
theorem codecAnswersIgnoreScheduler : Obligations.CodecAnswersIgnoreScheduler := by
  unfold Obligations.CodecAnswersIgnoreScheduler
  intro i s1 s2 t1 kind params rng drawIn h
  obtain stateless | chan := kind
  · obtain ⟨e, r, -, answers⟩ := exec_stateless stateless h
    obtain rfl := Host.Outcome.next.inj (h.symm.trans (answers s1 rfl))
    exact ⟨_, [.response i.op e r], answers s2 params.symm, rfl, rfl, rng, drawIn⟩
  · cases i with
    | chanApply signal noise =>
      obtain ⟨k, r, answers⟩ := exec_chanApply_sameSource h
      obtain rfl := Host.Outcome.next.inj (h.symm.trans (answers s1 ⟨rfl, rfl, rfl⟩))
      refine ⟨_, List.replicate k (.draw noise) ++ [.response .chanApply .ok r],
        answers s2 ⟨params.symm, rng.symm, drawIn.symm⟩, ?_, ?_, ?_, ?_⟩
      · simp
      · simp
      · simp [rng]
      · simp [drawIn]
    | frameEnc | frameDec | sensPack | sensUnpack | tdmaAdd | tdmaStart | tdmaStop | bpskMod | bpskDemod => cases chan

/-- What an operation can answer: nothing yet, `Ok` after its draws, or an error that wrote no state and has no result
(R191, R197). -/
theorem exec_answers {i : Instr} {s t : State} (h : exec i s = .next t) :
    t.out = s.out ∨ (∃ outs r, t.out = s.out ++ outs ++ [.response i.op .ok r])
      ∨ ∃ e, t = responded s i.op e .nothing := by
  cases stateless : isStateless i.op with
  | true =>
    obtain ⟨e, r, error, answers⟩ := exec_stateless stateless h
    obtain rfl := Host.Outcome.next.inj (h.symm.trans (answers s rfl))
    by_cases ok : e = .ok
    · exact .inr (.inl ⟨[], r, by simp [responded, ok]⟩)
    · exact .inr (.inr ⟨e, by rw [error ok]⟩)
  | false =>
    cases i with
    | tdmaAdd record =>
      cases mode : s.running with
      | true =>
        rw [exec_tdmaAdd_running mode] at h
        cases h; exact .inr (.inr ⟨_, rfl⟩)
      | false =>
        by_cases kind : record.kind = .unknown
        · rw [exec_tdmaAdd_unknown mode kind] at h
          cases h; exact .inr (.inr ⟨_, rfl⟩)
        · cases full : sourceListFull s with
          | true =>
            rw [exec_tdmaAdd_full mode kind full] at h
            cases h
          | false =>
            rw [exec_tdmaAdd_room mode kind full] at h
            cases h; exact .inr (.inl ⟨[], .nothing, by simp [Instr.op]⟩)
    | tdmaStart tr c =>
      cases mode : s.running with
      | true =>
        rw [exec_tdmaStart_running mode] at h
        cases h; exact .inr (.inr ⟨_, rfl⟩)
      | false =>
        by_cases empty : s.sources = []
        · rw [exec_tdmaStart_empty mode empty] at h
          cases h; exact .inr (.inr ⟨_, rfl⟩)
        · rw [exec_tdmaStart_enters mode empty] at h
          cases h; exact .inl rfl
    | tdmaStop => cases h; exact .inr (.inl ⟨[], .nothing, by simp [Instr.op]⟩)
    | chanApply signal noise =>
      obtain ⟨k, r, answers⟩ := exec_chanApply_sameSource h
      obtain rfl := Host.Outcome.next.inj (h.symm.trans (answers s ⟨rfl, rfl, rfl⟩))
      exact .inr (.inl ⟨List.replicate k (.draw noise), r, by simp [Instr.op]⟩)
    | frameEnc | frameDec | sensPack | sensUnpack | bpskMod | bpskDemod => cases stateless

/-- Settles O54: of the three things an operation can answer, the response of an error is the last. -/
theorem errorsWriteNoState : Obligations.ErrorsWriteNoState := by
  unfold Obligations.ErrorsWriteNoState
  intro i s t op e r h out error
  obtain same | ⟨outs, r', ok⟩ | ⟨e', rfl⟩ := exec_answers h
  · simp [same] at out
  · have last : Output.response i.op .ok r' = .response op e r := by
      simpa using congrArg List.getLast? (ok.symm.trans out)
    cases last
    exact absurd rfl error
  · have last : Output.response i.op e' .nothing = .response op e r := by simpa [responded] using out
    cases last
    exact ⟨rfl, rfl⟩

end Sys2Proof.Machine
